-- ==== Sys2Proof/Word.lean ====
section
/-! DEFINITION. The bit-vector types of the HOTP engine: bytes, register words, word indices and the
40-bit host transaction. Their widths are the fixed parameters of 00_scope.md rule R7. -/

namespace Sys2Proof

/-- One byte of a buffer, a message or a text (00_scope.md rule R8). -/
abbrev Byte := BitVec 8

/-- One 32-bit register word, the parameter `DATA_W` (00_scope.md rule R7). -/
abbrev Word := BitVec 32

/-- A word index of the 128-word register space, the parameter `ADDR_W` (20_memory.md rule R60). -/
abbrev Index := BitVec 7

/-- A host transaction in format `HT` (30_encoding.md rule R81). -/
abbrev Transaction := BitVec 40

end Sys2Proof
end

