-- ==== Sys2Proof/Config.lean ====
section
/-! DEFINITION. What one implementation of the engine fixes: the sizes and ranges of 00_scope.md rule R7.
The open parameter `HAS_B32` is a field of the machine's state that no step changes (log entry 1), so that a
statement about every state is a statement about both engines. The open parameter `LAT` is the schedule of
events a state holds (log entry 2). No value of this engine is left free by the spec, so nothing here is opaque. -/

namespace Sys2Proof.Config

/-- `KEY_MAX`: bytes in the secret buffer (rule R7). -/
abbrev keyMax : Nat := 64

/-- `TXT_MAX`: bytes in the text buffer, the Base32 length of 64 bytes (rule R7). -/
abbrev txtMax : Nat := 104

/-- `DIGITS_MIN` (rule R7). -/
abbrev digitsMin : Nat := 6

/-- `DIGITS_MAX` (rule R7). -/
abbrev digitsMax : Nat := 8

/-- The value of `HAS_B32` in `State.reset` and in the table's decoder. DESIGN CHOICE (log entry 1): the spec
leaves the parameter open; `true` is the engine that has every row of the opcode table. -/
abbrev tableHasB32 : Bool := true

end Sys2Proof.Config
end

