-- ==== Sys2Proof/Syntax.lean ====
section
/-! DEFINITION. The engine's instructions, one constructor per row of spec/opcode_table.json, the two encoded
forms of 30_encoding.md rule R80, and the register names of 20_memory.md rule R61. -/

namespace Sys2Proof

/-- What the engine is asked to do: the two host transactions (format `HT`) and the command words (format `CW`),
the illegal complement included. -/
inductive Instr where
  /-- `RD idx`, 40_host_access.md rule R100. `data` is the `DATA` field, which the engine ignores on a read. -/
  | rd (idx : Index) (data : Word)
  /-- `WR idx, data`, 40_host_access.md rule R101. -/
  | wr (idx : Index) (data : Word)
  /-- `HOTP`, 44_hotp.md rule R190. -/
  | hotp
  /-- `B32ENC`, 42_base32.md rule R146; present when `HAS_B32`. -/
  | b32enc
  /-- `B32DEC`, 42_base32.md rule R147; present when `HAS_B32`. -/
  | b32dec
  /-- `CLEAR`, 41_command_sequencer.md rule R124. -/
  | clear
  /-- Every other command word, 41_command_sequencer.md rule R125. -/
  | illegal (word : Word)
  deriving DecidableEq, Repr

/-- The two formats of 30_encoding.md rule R80, each with its one fixed length. -/
inductive Encoded where
  /-- Format `HT`: a host transaction of 40 bits (rule R81). -/
  | ht (bits : Transaction)
  /-- Format `CW`: a command word of 32 bits (rule R82). -/
  | cw (bits : Word)
  deriving DecidableEq, Repr

/-- The mapped registers, by the names of 20_memory.md rule R61 and 30_encoding.md rule R87. -/
inductive Reg where
  | cmd
  | status
  | cfg
  | id
  | keylen
  | txtlen
  | ctrHi
  | ctrLo
  | code
  | trunc
  | codeStr0
  | codeStr1
  /-- `DIGEST0` .. `DIGEST7` -/
  | digest (n : Fin 8)
  /-- `KEY0` .. `KEY15` -/
  | key (n : Fin 16)
  /-- `TXT0` .. `TXT25` -/
  | txt (n : Fin 26)
  deriving DecidableEq, Repr

end Sys2Proof
end

