-- ==== Sys2Proof/WellFormed.lean ====
section
/-! DEFINITION. Which terms of `Instr` stand for an encoding the engine has: a codec command exists only with
the codec, and `illegal` holds only words that no row of 30_encoding.md rule R83 lists. -/

namespace Sys2Proof

/-- The command words that select an operation, 30_encoding.md rule R83. -/
def legalWords (hasB32 : Bool) : List Word :=
  if hasB32 then [0x00000001, 0x00000002, 0x00000003, 0x00000004] else [0x00000001, 0x00000004]

/-- Every host transaction is legal (rule R81); `B32ENC` and `B32DEC` need the codec (rule R83); an illegal word is
any other word (rule R84). -/
def Instr.wellFormed (hasB32 : Bool) : Instr → Bool
  | .rd _ _ => true
  | .wr _ _ => true
  | .hotp => true
  | .b32enc => hasB32
  | .b32dec => hasB32
  | .clear => true
  | .illegal w => !(legalWords hasB32).contains w

end Sys2Proof
end

