-- ==== Sys2Proof/Decode.lean ====
section
/-! DEFINITION. The decoder, total over all 2^40 transactions and all 2^32 command words (30_encoding.md rules R81
to R84, 41_command_sequencer.md rule R122), and the encoder written from the same tables. -/

namespace Sys2Proof

/-- Format `HT` (30_encoding.md rule R81): bit 39 is `W`, bits 38:32 are `IDX`, bits 31:0 are `DATA`. -/
def decodeTransaction (ht : Transaction) : Instr :=
  if ht.getLsbD 39 then .wr (ht.extractLsb' 32 7) (ht.extractLsb' 0 32)
  else .rd (ht.extractLsb' 32 7) (ht.extractLsb' 0 32)

/-- Format `CW` (30_encoding.md rule R82) and the dispatch of 41_command_sequencer.md rule R122: bits 31:8 are
`RSVZ` and must be 0, bits 7:0 are `OP`. -/
def decodeCommand (hasB32 : Bool) (w : Word) : Instr :=
  if w.extractLsb' 8 24 ≠ 0 then .illegal w
  else if w.extractLsb' 0 8 = 0x01 then .hotp
  else if w.extractLsb' 0 8 = 0x02 then (if hasB32 then .b32enc else .illegal w)
  else if w.extractLsb' 0 8 = 0x03 then (if hasB32 then .b32dec else .illegal w)
  else if w.extractLsb' 0 8 = 0x04 then .clear
  else .illegal w

/-- The decoder of both formats. -/
def Encoded.decode (hasB32 : Bool) : Encoded → Instr
  | .ht bits => decodeTransaction bits
  | .cw bits => decodeCommand hasB32 bits

/-- Why a bit string is no encoding of this engine: the only reason is its length (30_encoding.md rules R80, R81,
R84). -/
inductive DecodeError where
  /-- Neither 40 bits (format `HT`) nor 32 bits (format `CW`). -/
  | noSuchLength (nbits : Nat)
  deriving DecidableEq, Repr

/-- The decoder on a bit string of a given length. -/
def decodeBits (hasB32 : Bool) (nbits w : Nat) : Except DecodeError Instr :=
  if nbits = 40 then .ok (decodeTransaction (BitVec.ofNat 40 w))
  else if nbits = 32 then .ok (decodeCommand hasB32 (BitVec.ofNat 32 w))
  else .error (.noSuchLength nbits)

/-- The instruction the decoder reads from a row of spec/opcode_table.json, with the codec present (log entry 1). -/
def decodeTableWord (nbits w : Nat) : Option Instr :=
  match decodeBits Config.tableHasB32 nbits w with
  | .ok i => some i
  | .error _ => none

/-- `HT = {W, IDX[6:0], DATA[31:0]}` (30_encoding.md rule R81). -/
def encodeTransaction (write : Bool) (idx : Index) (data : Word) : Transaction :=
  BitVec.ofBool write ++ idx ++ data

/-- The words of an instruction (30_encoding.md rules R81 to R84). -/
def encode : Instr → Encoded
  | .rd idx data => .ht (encodeTransaction false idx data)
  | .wr idx data => .ht (encodeTransaction true idx data)
  | .hotp => .cw 0x00000001
  | .b32enc => .cw 0x00000002
  | .b32dec => .cw 0x00000003
  | .clear => .cw 0x00000004
  | .illegal w => .cw w

end Sys2Proof
end

