-- ==== Sys2Proof/Machine/State.lean ====
section
/-! DEFINITION. The engine's state, exactly the elements of 10_state.md rule R20, and around it what the model of the
two agents needs: the parameter `HAS_B32`, the schedule of steps still to come, and the answer on the register port. -/

namespace Sys2Proof.Machine

/-- The hash selected by `cfg.alg` (10_state.md rule R24). -/
inductive Alg where
  /-- Bit value 0: HMAC-SHA-1, the default. -/
  | sha1
  /-- Bit value 1: HMAC-SHA-256. -/
  | sha256
  deriving DecidableEq, Repr

/-- The fields of `CFG` (10_state.md rule R24); the reserved bits read 0 and are not state. -/
structure Cfg where
  /-- `CFG[3:0]`, any of 0..15; `HOTP` accepts 6, 7 and 8. -/
  digits : BitVec 4
  /-- `CFG[4]`. -/
  alg : Alg
  /-- `CFG[8]`, the interrupt enable. -/
  ie : Bool
  deriving DecidableEq, Repr

/-- The fields of `STATUS` (10_state.md rule R25). -/
structure Status where
  /-- `STATUS[0]`: a command is accepted and not completed. -/
  busy : Bool
  /-- `STATUS[1]`: a command has completed since `done` was last cleared. -/
  done : Bool
  /-- `STATUS[2]`: the result registers hold the result of the last `HOTP` and it succeeded. -/
  rvalid : Bool
  /-- `STATUS[3]`, sticky: a write to a locked register was dropped. -/
  lockerr : Bool
  /-- `STATUS[7:4]`: the error code of the last completed command. -/
  errcode : BitVec 4
  deriving DecidableEq, Repr

/-- The complete state of the engine, 10_state.md rule R20. `txt` and `txtlen` exist in the hardware only when
`HAS_B32`; without the codec no step reads or changes them (log entry 7). -/
structure Engine where
  /-- `key[0..63]`, the secret buffer. -/
  key : Vector Byte 64
  /-- The secret's length in bytes; 0..64 is legal for commands. -/
  keylen : BitVec 7
  /-- The HOTP counter. -/
  ctr : BitVec 64
  cfg : Cfg
  status : Status
  /-- `DIGEST0` .. `DIGEST7`. -/
  digest : Vector Word 8
  trunc : Word
  code : Word
  /-- `code_str[0..7]`. -/
  codeStr : Vector Byte 8
  /-- `txt[0..103]`, the Base32 text buffer. -/
  txt : Vector Byte 104
  /-- The text's length in bytes; 0..104 is legal for commands. -/
  txtlen : BitVec 8
  /-- The command word accepted, hidden; meaningful only while `status.busy`. -/
  cmdLatch : Word
  deriving DecidableEq, Repr

/-- One atomic step of 00_scope.md rule R12, as the schedule names it. -/
inductive Event where
  /-- The host presents a transaction on the register port. -/
  | request (ht : Transaction)
  /-- The engine's turn: its completion step, if it is enabled. -/
  | completion
  /-- A clock edge with `rst = 1`, and the transaction presented in that cycle, if any: it is discarded
  (70_reset_and_hazards.md rule R240). -/
  | reset (presented : Option Transaction)
  deriving DecidableEq, Repr

/-- The machine: the engine, its parameter, and the two agents' steps still to come. -/
structure State where
  /-- The parameter `HAS_B32` (00_scope.md rule R7); no step changes it (log entry 1). -/
  hasB32 : Bool
  /-- Every element of 10_state.md rule R20. -/
  eng : Engine
  /-- The steps the host and the engine take next, first one first; the model's own field (log entry 2). -/
  events : List Event
  /-- `rsp_rdata` of the step just taken; none when that step was no transaction, for the wire is valid only in the
  cycle of a request (70_reset_and_hazards.md rule R243); the model's own field (log entry 4). -/
  rsp : Option Word
  deriving DecidableEq, Repr

/-- Why a step stops with a fault: never. "A model's step function for this engine has no fault outcome and no
refusal: every host transaction and every completion is total" (60_exceptions.md rule R212). -/
inductive Fault where
  deriving DecidableEq, Repr

/-- Why a step is refused. -/
inductive Refusal where
  /-- Raised by an arm of `exec` whose instruction has no meaning yet (safe); no arm is of this kind. -/
  | notModelled (mnemonic : String)
  deriving DecidableEq, Repr

/-- The reset values of 10_state.md rule R36: all zero but `cfg.digits = 6`. -/
def Engine.reset : Engine where
  key := Vector.replicate 64 0
  keylen := 0
  ctr := 0
  cfg := { digits := 6, alg := .sha1, ie := false }
  status := { busy := false, done := false, rvalid := false, lockerr := false, errcode := 0 }
  digest := Vector.replicate 8 0
  trunc := 0
  code := 0
  codeStr := Vector.replicate 8 0
  txt := Vector.replicate 104 0
  txtlen := 0
  cmdLatch := 0

/-- The machine right after reset: the engine at its reset values, no step scheduled, no answer on the port. -/
def State.reset : State where
  hasB32 := Config.tableHasB32
  eng := Engine.reset
  events := []
  rsp := none

end Sys2Proof.Machine
end

