-- ==== Sys2Proof/Machine/Flags.lean ====
section
/-! DEFINITION. Every computation on the `STATUS` flags (10_state.md rule R25), the error codes (60_exceptions.md rule
R210) and the interrupt wire (10_state.md rule R35). -/

namespace Sys2Proof.Machine

/-- The causes of an error completion, 60_exceptions.md rule R210. -/
inductive CmdError where
  /-- `E_DIGITS`: `cfg.digits` not in 6, 7, 8. -/
  | digits
  /-- `E_FORMAT`: malformed Base32 text. -/
  | format
  /-- `E_CMD`: an illegal command word. -/
  | cmd
  /-- `E_KEYLEN`: `keylen > 64`. -/
  | keylen
  /-- `E_TXTLEN`: `txtlen > 104`. -/
  | txtlen
  /-- `E_OVERFLOW`: the text decodes to more than 64 bytes. -/
  | overflow
  deriving DecidableEq, Repr

/-- `E_NONE` (60_exceptions.md rule R210). -/
def errNone : BitVec 4 := 0

/-- The 4-bit codes of 60_exceptions.md rule R210. -/
def errCode : CmdError → BitVec 4
  | .digits => 1
  | .format => 2
  | .cmd => 3
  | .keylen => 4
  | .txtlen => 5
  | .overflow => 6

/-- `{0[31:8], errcode[3:0], lockerr, rvalid, done, busy}` (40_host_access.md rule R100). -/
def statusWord (s : Status) : Word :=
  (0 : BitVec 24) ++ s.errcode ++ BitVec.ofBool s.lockerr ++ BitVec.ofBool s.rvalid ++ BitVec.ofBool s.done
    ++ BitVec.ofBool s.busy

/-- A write of `STATUS`: bit 1 clears `DONE`, bit 3 clears `LOCKERR`, nothing else (40_host_access.md rule R103). -/
def statusW1C (s : Status) (v : Word) : Status :=
  { s with done := s.done && !v.getLsbD 1, lockerr := s.lockerr && !v.getLsbD 3 }

/-- A dropped write (40_host_access.md rule R105). -/
def statusLockErr (s : Status) : Status := { s with lockerr := true }

/-- The flags a command accept writes (41_command_sequencer.md rule R120). -/
def statusAccept (s : Status) : Status := { s with busy := true, done := false, errcode := errNone }

/-- The flags every completion writes (41_command_sequencer.md rule R121). -/
def statusComplete (s : Status) (code : BitVec 4) : Status :=
  { s with busy := false, done := true, errcode := code }

/-- `RVALID` set or cleared (41_command_sequencer.md rules R123 and R124, 44_hotp.md rule R190). -/
def statusRvalid (s : Status) (valid : Bool) : Status := { s with rvalid := valid }

/-- The output wire `irq = cfg.ie & status.done`, at every moment (10_state.md rule R35, 60_exceptions.md rule R216). -/
def irq (e : Engine) : Bool := e.cfg.ie && e.status.done

end Sys2Proof.Machine
end

