-- ==== Sys2Proof/Machine/Bytes.lean ====
section
/-! DEFINITION. Byte sequences, serialisation and the word view of a buffer (00_scope.md rules R8 and R9,
20_memory.md rule R63): every order is most significant byte first. -/

namespace Sys2Proof.Machine

/-- `word_be(b0, b1, b2, b3) = {b0, b1, b2, b3}` (00_scope.md rule R9). -/
def wordBE (b0 b1 b2 b3 : Byte) : Word := b0 ++ b1 ++ b2 ++ b3

/-- `be32(w)`: the four bytes of a word, most significant first (00_scope.md rule R9). -/
def be32 (w : Word) : List Byte :=
  [w.extractLsb' 24 8, w.extractLsb' 16 8, w.extractLsb' 8 8, w.extractLsb' 0 8]

/-- `be64(x)`: the eight bytes of a 64-bit value, most significant first (00_scope.md rule R9). -/
def be64 (x : BitVec 64) : List Byte :=
  [x.extractLsb' 56 8, x.extractLsb' 48 8, x.extractLsb' 40 8, x.extractLsb' 32 8,
   x.extractLsb' 24 8, x.extractLsb' 16 8, x.extractLsb' 8 8, x.extractLsb' 0 8]

/-- A byte sequence read as words, four bytes a word, most significant first (43_hash_hmac.md rule R160). -/
def wordsBE : List Byte → List Word
  | b0 :: b1 :: b2 :: b3 :: rest => wordBE b0 b1 b2 b3 :: wordsBE rest
  | _ => []

/-- A buffer of `n` bytes holding `bytes` from its start and 0x00 after them. -/
def bufferOf (n : Nat) (bytes : List Byte) : Vector Byte n := Vector.ofFn fun i => bytes.getD i 0

/-- Word `n` of a buffer: bytes `4n` .. `4n+3`, the lowest-numbered in bits 31:24 (10_state.md rules R21, R31, R32). -/
def wordAt {k : Nat} (buf : Vector Byte k) (n : Nat) (h : 4 * n + 3 < k) : Word :=
  wordBE buf[4 * n] buf[4 * n + 1] buf[4 * n + 2] buf[4 * n + 3]

/-- A buffer with bytes `4n` .. `4n+3` set to `be32(v)` (10_state.md rule R21, 40_host_access.md rule R101). -/
def setWordAt {k : Nat} (buf : Vector Byte k) (n : Nat) (h : 4 * n + 3 < k) (v : Word) : Vector Byte k :=
  (((buf.set (4 * n) (v.extractLsb' 24 8)).set (4 * n + 1) (v.extractLsb' 16 8)).set
    (4 * n + 2) (v.extractLsb' 8 8)).set (4 * n + 3) (v.extractLsb' 0 8)

end Sys2Proof.Machine
end

