-- ==== Sys2Proof/Machine/Operands.lean ====
section
/-! DEFINITION. The operands of the two host transactions: the register map that gives a word index its register
(20_memory.md rule R61), which registers are locked, and the fields of the registers that are more than plain
storage (30_encoding.md rule R89). The commands' operands are implicit (30_encoding.md rule R82). -/

namespace Sys2Proof.Machine

/-- The register map, 20_memory.md rule R61: the register at a word index, none for an unmapped one. `TXTLEN` and
`TXT0` .. `TXT25` are mapped only with the codec (10_state.md rule R32). -/
def regAt (hasB32 : Bool) (idx : Index) : Option Reg :=
  let i := idx.toNat
  if i = 0x00 then some .cmd
  else if i = 0x01 then some .status
  else if i = 0x02 then some .cfg
  else if i = 0x03 then some .id
  else if i = 0x04 then some .keylen
  else if i = 0x05 then (if hasB32 then some .txtlen else none)
  else if i = 0x06 then some .ctrHi
  else if i = 0x07 then some .ctrLo
  else if i = 0x08 then some .code
  else if i = 0x09 then some .trunc
  else if i = 0x0A then some .codeStr0
  else if i = 0x0B then some .codeStr1
  else if h : 0x10 ≤ i ∧ i ≤ 0x17 then some (.digest ⟨i - 0x10, by omega⟩)
  else if h : 0x20 ≤ i ∧ i ≤ 0x2F then some (.key ⟨i - 0x20, by omega⟩)
  else if h : 0x40 ≤ i ∧ i ≤ 0x59 then (if hasB32 then some (.txt ⟨i - 0x40, by omega⟩) else none)
  else none

/-- `idx(<reg>)`, the word index of a register (20_memory.md rule R61, 30_encoding.md rule R87). -/
def regIndex : Reg → Index
  | .cmd => 0x00
  | .status => 0x01
  | .cfg => 0x02
  | .id => 0x03
  | .keylen => 0x04
  | .txtlen => 0x05
  | .ctrHi => 0x06
  | .ctrLo => 0x07
  | .code => 0x08
  | .trunc => 0x09
  | .codeStr0 => 0x0A
  | .codeStr1 => 0x0B
  | .digest n => BitVec.ofNat 7 (0x10 + n.val)
  | .key n => BitVec.ofNat 7 (0x20 + n.val)
  | .txt n => BitVec.ofNat 7 (0x40 + n.val)

/-- The registers that exist only with the codec (10_state.md rule R32). -/
def needsCodec : Reg → Bool
  | .txtlen | .txt _ => true
  | .cmd | .status | .cfg | .id | .keylen | .ctrHi | .ctrLo | .code | .trunc | .codeStr0 | .codeStr1
  | .digest _ | .key _ => false

/-- The lockable writable registers, 40_host_access.md rule R102. -/
def lockable : Reg → Bool
  | .cmd | .cfg | .keylen | .txtlen | .ctrHi | .ctrLo | .key _ | .txt _ => true
  | .status | .id | .code | .trunc | .codeStr0 | .codeStr1 | .digest _ => false

/-- The registers that read as they are while busy, 40_host_access.md rule R104: `STATUS` and `ID`. -/
def readableWhileBusy : Reg → Bool
  | .status | .id => true
  | .cmd | .cfg | .keylen | .txtlen | .ctrHi | .ctrLo | .code | .trunc | .codeStr0 | .codeStr1
  | .digest _ | .key _ | .txt _ => false

/-- `CFG[4]` (10_state.md rule R24). -/
def algBit : Alg → Bool
  | .sha1 => false
  | .sha256 => true

/-- The algorithm a bit of `CFG[4]` selects (10_state.md rule R24). -/
def algOfBit (b : Bool) : Alg := if b then .sha256 else .sha1

/-- `{0[31:9], cfg.ie, 0[7:5], cfg.alg, cfg.digits}` (40_host_access.md rule R100). -/
def cfgWord (c : Cfg) : Word :=
  (0 : BitVec 23) ++ BitVec.ofBool c.ie ++ (0 : BitVec 3) ++ BitVec.ofBool (algBit c.alg) ++ c.digits

/-- The fields a write of `CFG` stores: bits 3:0, 4 and 8 (40_host_access.md rule R101). -/
def cfgOfWord (v : Word) : Cfg :=
  { digits := v.extractLsb' 0 4, alg := algOfBit (v.getLsbD 4), ie := v.getLsbD 8 }

/-- `ID` (10_state.md rule R27): `0x484F5410`, with bit 0 set when the codec is present. -/
def idWord (hasB32 : Bool) : Word := if hasB32 then 0x484F5411 else 0x484F5410

/-- `ctr[63:32]` (10_state.md rule R23). -/
def ctrHiWord (ctr : BitVec 64) : Word := ctr.extractLsb' 32 32

/-- `ctr[31:0]` (10_state.md rule R23). -/
def ctrLoWord (ctr : BitVec 64) : Word := ctr.extractLsb' 0 32

/-- `ctr <- {v, ctr[31:0]}` (40_host_access.md rule R101). -/
def setCtrHi (ctr : BitVec 64) (v : Word) : BitVec 64 := v ++ ctrLoWord ctr

/-- `ctr <- {ctr[63:32], v}` (40_host_access.md rule R101). -/
def setCtrLo (ctr : BitVec 64) (v : Word) : BitVec 64 := ctrHiWord ctr ++ v

/-- The secret: `key[0..keylen)` (10_state.md rule R21). -/
def secret (e : Engine) : List Byte := e.key.toList.take e.keylen.toNat

/-- The text: `txt[0..txtlen)` (10_state.md rule R32). -/
def text (e : Engine) : List Byte := e.txt.toList.take e.txtlen.toNat

end Sys2Proof.Machine
end

