-- ==== Sys2Proof/Machine/Ops.lean ====
section
/-! DEFINITION. The shared operations: reading and writing one register, accepting a command, and completing one
with success or with an error. The engine has no memory (10_state.md rule R34) and takes no exception
(60_exceptions.md rule R212); the error completion is its whole error mechanism. -/

namespace Sys2Proof.Machine

/-- The value a register holds, as a read that is not locked returns it (40_host_access.md rule R100). -/
def readReg (hasB32 : Bool) (e : Engine) : Reg → Word
  | .cmd => 0
  | .status => statusWord e.status
  | .cfg => cfgWord e.cfg
  | .id => idWord hasB32
  | .keylen => e.keylen.setWidth 32
  | .txtlen => e.txtlen.setWidth 32
  | .ctrHi => ctrHiWord e.ctr
  | .ctrLo => ctrLoWord e.ctr
  | .code => e.code
  | .trunc => e.trunc
  | .codeStr0 => wordAt e.codeStr 0 (by omega)
  | .codeStr1 => wordAt e.codeStr 1 (by omega)
  | .digest n => e.digest[n]
  | .key n => wordAt e.key n (by omega)
  | .txt n => wordAt e.txt n (by omega)

/-- The value `RD idx` returns, 40_host_access.md rules R100 and R104: an unmapped index reads 0, a register other
than `STATUS` and `ID` reads 0 while busy. -/
def readIndex (hasB32 : Bool) (e : Engine) (idx : Index) : Word :=
  match regAt hasB32 idx with
  | none => 0
  | some r => if e.status.busy && !readableWhileBusy r then 0 else readReg hasB32 e r

/-- Command accept, 41_command_sequencer.md rule R120. -/
def accept (e : Engine) (w : Word) : Engine := { e with cmdLatch := w, status := statusAccept e.status }

/-- The effect of a write that is not dropped (40_host_access.md rule R101); a read-only register ignores it
(20_memory.md rule R66). -/
def writeReg (e : Engine) : Reg → Word → Engine
  | .cmd, v => accept e v
  | .status, v => { e with status := statusW1C e.status v }
  | .cfg, v => { e with cfg := cfgOfWord v }
  | .id, _ => e
  | .keylen, v => { e with keylen := v.extractLsb' 0 7 }
  | .txtlen, v => { e with txtlen := v.extractLsb' 0 8 }
  | .ctrHi, v => { e with ctr := setCtrHi e.ctr v }
  | .ctrLo, v => { e with ctr := setCtrLo e.ctr v }
  | .code, _ => e
  | .trunc, _ => e
  | .codeStr0, _ => e
  | .codeStr1, _ => e
  | .digest _, _ => e
  | .key n, v => { e with key := setWordAt e.key n (by omega) v }
  | .txt n, v => { e with txt := setWordAt e.txt n (by omega) v }

/-- The effect of `WR idx, v`, 40_host_access.md rules R101 and R105: an unmapped index ignores it, and a write of a
lockable register while busy is dropped and sets `LOCKERR`. -/
def writeIndex (hasB32 : Bool) (e : Engine) (idx : Index) (v : Word) : Engine :=
  match regAt hasB32 idx with
  | none => e
  | some r =>
    if lockable r && e.status.busy then { e with status := statusLockErr e.status } else writeReg e r v

/-- Completion with success: the command's updates are in `e`, and the flags say so (41_command_sequencer.md rule
R121). -/
def completeOk (e : Engine) : Engine := { e with status := statusComplete e.status errNone }

/-- The one error completion, 41_command_sequencer.md rule R123: `STATUS` alone changes. `keepsRvalid` is false for the
`HOTP` command, whose stale results are marked not valid. -/
def completeErr (keepsRvalid : Bool) (e : Engine) (c : CmdError) : Engine :=
  { e with status := statusComplete (statusRvalid e.status (keepsRvalid && e.status.rvalid)) (errCode c) }

/-- The engine after the completion step, 41_command_sequencer.md rule R121: `command` is the latched command's own
rule, which answers its updates or the error it raises. -/
def completed (keepsRvalid : Bool) (command : Engine → Except CmdError Engine) (e : Engine) : Engine :=
  match command e with
  | .ok e' => completeOk e'
  | .error c => completeErr keepsRvalid e c

/-- The engine's atomic step `complete` (41_command_sequencer.md rule R121). No transaction is answered in it. -/
def complete (keepsRvalid : Bool) (command : Engine → Except CmdError Engine) (s : State) :
    Host.Outcome State Fault Refusal :=
  .next { s with eng := completed keepsRvalid command s.eng, rsp := none }

end Sys2Proof.Machine
end

