-- ==== Sys2Proof/Machine/Base32.lean ====
section
/-! DEFINITION. The Base32 codec and its commands `B32ENC` and `B32DEC` (42_base32.md). -/

namespace Sys2Proof.Machine

/-- The bits of a value, most significant first (42_base32.md rules R141 and R142). -/
def bitsMSB {w : Nat} (v : BitVec w) : List Bool := List.ofFn fun i : Fin w => v.getMsbD i

/-- The value of a bit string, first bit most significant (42_base32.md rules R141 and R142). -/
def ofBitsMSB (w : Nat) (bits : List Bool) : BitVec w :=
  BitVec.ofNat w (bits.foldl (fun n b => 2 * n + b.toNat) 0)

/-- The first `n` groups of `k` items. -/
def groups {α : Type} (k : Nat) : Nat → List α → List (List α)
  | 0, _ => []
  | n + 1, items => items.take k :: groups k n (items.drop k)

/-- `ALPHA[v]` (42_base32.md rule R140). -/
def alpha (v : BitVec 5) : Byte :=
  if v.toNat ≤ 25 then BitVec.ofNat 8 (0x41 + v.toNat) else BitVec.ofNat 8 (0x32 + (v.toNat - 26))

/-- `B32E(b)`, 42_base32.md rule R141. -/
def b32Encode (bytes : List Byte) : List Byte :=
  let n := bytes.length
  let m := (8 * n + 4) / 5
  let bits := bytes.flatMap bitsMSB ++ List.replicate (5 * m - 8 * n) false
  let chars := (groups 5 m bits).map fun g => alpha (ofBitsMSB 5 g)
  chars ++ List.replicate (8 * ((n + 4) / 5) - m) 0x3D

/-- What one character of a text is to the decoder (42_base32.md rule R142). -/
inductive B32Char where
  /-- A character of the alphabet, in either case. -/
  | value (v : BitVec 5)
  /-- The pad character `=`, skipped wherever it stands. -/
  | pad
  /-- Any other byte. -/
  | bad
  deriving DecidableEq, Repr

/-- The class of a character (42_base32.md rules R140 and R142). -/
def b32Char (c : Byte) : B32Char :=
  if 0x41 ≤ c.toNat ∧ c.toNat ≤ 0x5A then .value (BitVec.ofNat 5 (c.toNat - 0x41))
  else if 0x61 ≤ c.toNat ∧ c.toNat ≤ 0x7A then .value (BitVec.ofNat 5 (c.toNat - 0x61))
  else if 0x32 ≤ c.toNat ∧ c.toNat ≤ 0x37 then .value (BitVec.ofNat 5 (c.toNat - 0x32 + 26))
  else if c.toNat = 0x3D then .pad
  else .bad

/-- The list `vals` of 42_base32.md rule R142, or `E_FORMAT` at a byte outside the alphabet. -/
def b32Values : List Byte → Except CmdError (List (BitVec 5))
  | [] => .ok []
  | c :: rest =>
    match b32Char c with
    | .value v => (b32Values rest).map (v :: ·)
    | .pad => b32Values rest
    | .bad => .error .format

/-- `B32D(t)`, 42_base32.md rule R142; the spare bits are discarded without being examined. -/
def b32Decode (text : List Byte) : Except CmdError (List Byte) :=
  match b32Values text with
  | .error c => .error c
  | .ok vals =>
    let m := vals.length
    if m % 8 = 1 ∨ m % 8 = 3 ∨ m % 8 = 6 then .error .format
    else .ok ((groups 8 (5 * m / 8) (vals.flatMap bitsMSB)).map (ofBitsMSB 8))

/-- The command's own rule for `B32ENC`, 42_base32.md rule R146. Without the codec the word is an illegal command
(30_encoding.md rule R84; log entry 8). -/
def b32encCommand (hasB32 : Bool) (e : Engine) : Except CmdError Engine :=
  if hasB32 = false then .error .cmd
  else if e.keylen.toNat > Config.keyMax then .error .keylen
  else
    let s := b32Encode (secret e)
    .ok { e with txt := bufferOf 104 s, txtlen := BitVec.ofNat 8 s.length }

/-- `B32ENC`, 42_base32.md rule R146. -/
def execB32enc (s : State) : Host.Outcome State Fault Refusal :=
  complete true (b32encCommand s.hasB32) s

/-- The command's own rule for `B32DEC`, 42_base32.md rule R147: the three checks in their order. Without the codec the
word is an illegal command (30_encoding.md rule R84; log entry 8). -/
def b32decCommand (hasB32 : Bool) (e : Engine) : Except CmdError Engine :=
  if hasB32 = false then .error .cmd
  else if e.txtlen.toNat > Config.txtMax then .error .txtlen
  else
    match b32Decode (text e) with
    | .error c => .error c
    | .ok r =>
      if r.length > Config.keyMax then .error .overflow
      else .ok { e with key := bufferOf 64 r, keylen := BitVec.ofNat 7 r.length }

/-- `B32DEC`, 42_base32.md rule R147. -/
def execB32dec (s : State) : Host.Outcome State Fault Refusal :=
  complete true (b32decCommand s.hasB32) s

end Sys2Proof.Machine
end

