-- ==== Sys2Proof/Machine/HostAccess.lean ====
section
/-! DEFINITION. The host transactions `RD` and `WR` (40_host_access.md). -/

namespace Sys2Proof.Machine

/-- `RD idx`, 40_host_access.md rule R100: the word goes to the host on `rsp_rdata`, and no state of the engine
changes (20_memory.md rule R64). The `DATA` field is ignored (30_encoding.md rule R81). -/
def execRd (idx : Index) (_data : Word) (s : State) : Host.Outcome State Fault Refusal :=
  .next { s with rsp := some (readIndex s.hasB32 s.eng idx) }

/-- `WR idx, v`, 40_host_access.md rule R101; `rsp_rdata` is 0 for a write (70_reset_and_hazards.md rule R243). -/
def execWr (idx : Index) (v : Word) (s : State) : Host.Outcome State Fault Refusal :=
  .next { s with eng := writeIndex s.hasB32 s.eng idx v, rsp := some 0 }

end Sys2Proof.Machine
end

