-- ==== Sys2Proof/Machine/Sha1.lean ====
section
/-! DEFINITION. SHA-1 (43_hash_hmac.md rules R160 to R165), and the padding and block reading both hashes share. -/

namespace Sys2Proof.Machine

/-- `ROTL_n(a)` (00_scope.md rule R10). -/
def rotl (n : Nat) (a : Word) : Word := (a <<< n) ||| (a >>> (32 - n))

/-- `ROTR_n(a)` (00_scope.md rule R10). -/
def rotr (n : Nat) (a : Word) : Word := (a >>> n) ||| (a <<< (32 - n))

/-- `SHR_n(a)` (00_scope.md rule R10). -/
def shr (n : Nat) (a : Word) : Word := a >>> n

/-- `z = (55 - l) mod 64`, the count of zero bytes of the padding (43_hash_hmac.md rule R161). -/
def padZeros (l : Nat) : Nat := ((55 - (l : Int)) % 64).toNat

/-- `PAD(msg)`, 43_hash_hmac.md rule R161. -/
def pad (msg : List Byte) : List Byte :=
  msg ++ [0x80] ++ List.replicate (padZeros msg.length) 0x00 ++ be64 (BitVec.ofNat 64 (8 * msg.length))

/-- The first `n` blocks of 64 bytes (43_hash_hmac.md rule R160). -/
def blocks : Nat → List Byte → List (List Byte)
  | 0, _ => []
  | n + 1, bytes => bytes.take 64 :: blocks n (bytes.drop 64)

/-- The blocks `P_1 .. P_N` of a padded message, `N = len(P)/64` (43_hash_hmac.md rules R165 and R169). -/
def paddedBlocks (msg : List Byte) : List (List Byte) := blocks ((pad msg).length / 64) (pad msg)

/-- A SHA-1 chaining value, `(H0..H4)` or the working words `(a, b, c, d, e)` (43_hash_hmac.md rules R163 and R164). -/
structure Chain1 where
  a : Word
  b : Word
  c : Word
  d : Word
  e : Word
  deriving DecidableEq, Repr

/-- `IV1` (43_hash_hmac.md rule R163). -/
def iv1 : Chain1 :=
  { a := 0x67452301, b := 0xEFCDAB89, c := 0x98BADCFE, d := 0x10325476, e := 0xC3D2E1F0 }

/-- `K1(t)` (43_hash_hmac.md rule R163). -/
def k1 (t : Nat) : Word :=
  if t ≤ 19 then 0x5A827999 else if t ≤ 39 then 0x6ED9EBA1 else if t ≤ 59 then 0x8F1BBCDC else 0xCA62C1D6

/-- `f(t; b, c, d)` (43_hash_hmac.md rule R162). -/
def f1 (t : Nat) (b c d : Word) : Word :=
  if t ≤ 19 then (b &&& c) ||| (~~~b &&& d)
  else if t ≤ 39 then b ^^^ c ^^^ d
  else if t ≤ 59 then (b &&& c) ||| (b &&& d) ||| (c &&& d)
  else b ^^^ c ^^^ d

/-- `n` more words of the SHA-1 message schedule, newest word first: the word before last is at position 1, so
`W[t-3]`, `W[t-8]`, `W[t-14]` and `W[t-16]` are at 2, 7, 13 and 15 (43_hash_hmac.md rule R164). -/
def extend1 : Nat → List Word → List Word
  | 0, w => w
  | n + 1, w => extend1 n (rotl 1 (w.getD 2 0 ^^^ w.getD 7 0 ^^^ w.getD 13 0 ^^^ w.getD 15 0) :: w)

/-- `W[0] .. W[79]` of a block (43_hash_hmac.md rules R160 and R164). -/
def schedule1 (block : List Byte) : List Word := (extend1 64 (wordsBE block).reverse).reverse

/-- Iteration `t` of the SHA-1 compression (43_hash_hmac.md rule R164). -/
def round1 (t : Nat) (w : Word) (h : Chain1) : Chain1 :=
  { a := rotl 5 h.a + f1 t h.b h.c h.d + h.e + k1 t + w, b := h.a, c := rotl 30 h.b, d := h.c, e := h.d }

/-- The iterations from `t` on, one for each word of the schedule (43_hash_hmac.md rule R164). -/
def rounds1 : Nat → List Word → Chain1 → Chain1
  | _, [], h => h
  | t, w :: ws, h => rounds1 (t + 1) ws (round1 t w h)

/-- `C1(H, B)` (43_hash_hmac.md rule R164). -/
def compress1 (h : Chain1) (block : List Byte) : Chain1 :=
  let r := rounds1 0 (schedule1 block) h
  { a := h.a + r.a, b := h.b + r.b, c := h.c + r.c, d := h.d + r.d, e := h.e + r.e }

/-- `be32` of each chaining word in order (43_hash_hmac.md rules R165 and R172). -/
def serialise1 (h : Chain1) : List Byte := be32 h.a ++ be32 h.b ++ be32 h.c ++ be32 h.d ++ be32 h.e

/-- `SHA1(msg)` (43_hash_hmac.md rule R165). -/
def sha1 (msg : List Byte) : List Byte := serialise1 ((paddedBlocks msg).foldl compress1 iv1)

end Sys2Proof.Machine
end

