-- ==== Sys2Proof/Machine/Sha256.lean ====
section
/-! DEFINITION. SHA-256 (43_hash_hmac.md rules R166 to R169). -/

namespace Sys2Proof.Machine

/-- A SHA-256 chaining value, `(H0..H7)` or the working words `(a, .., h)` (43_hash_hmac.md rules R166 and R168). -/
structure Chain256 where
  a : Word
  b : Word
  c : Word
  d : Word
  e : Word
  f : Word
  g : Word
  h : Word
  deriving DecidableEq, Repr

/-- `IV256` (43_hash_hmac.md rule R166). -/
def iv256 : Chain256 :=
  { a := 0x6a09e667, b := 0xbb67ae85, c := 0x3c6ef372, d := 0xa54ff53a,
    e := 0x510e527f, f := 0x9b05688c, g := 0x1f83d9ab, h := 0x5be0cd19 }

/-- `K256[0..63]`, eight a line as in 43_hash_hmac.md rule R166. -/
def k256 : List Word :=
  [0x428a2f98, 0x71374491, 0xb5c0fbcf, 0xe9b5dba5, 0x3956c25b, 0x59f111f1, 0x923f82a4, 0xab1c5ed5] ++
  [0xd807aa98, 0x12835b01, 0x243185be, 0x550c7dc3, 0x72be5d74, 0x80deb1fe, 0x9bdc06a7, 0xc19bf174] ++
  [0xe49b69c1, 0xefbe4786, 0x0fc19dc6, 0x240ca1cc, 0x2de92c6f, 0x4a7484aa, 0x5cb0a9dc, 0x76f988da] ++
  [0x983e5152, 0xa831c66d, 0xb00327c8, 0xbf597fc7, 0xc6e00bf3, 0xd5a79147, 0x06ca6351, 0x14292967] ++
  [0x27b70a85, 0x2e1b2138, 0x4d2c6dfc, 0x53380d13, 0x650a7354, 0x766a0abb, 0x81c2c92e, 0x92722c85] ++
  [0xa2bfe8a1, 0xa81a664b, 0xc24b8b70, 0xc76c51a3, 0xd192e819, 0xd6990624, 0xf40e3585, 0x106aa070] ++
  [0x19a4c116, 0x1e376c08, 0x2748774c, 0x34b0bcb5, 0x391c0cb3, 0x4ed8aa4a, 0x5b9cca4f, 0x682e6ff3] ++
  [0x748f82ee, 0x78a5636f, 0x84c87814, 0x8cc70208, 0x90befffa, 0xa4506ceb, 0xbef9a3f7, 0xc67178f2]

/-- `Ch(x, y, z)` (43_hash_hmac.md rule R167). -/
def ch256 (x y z : Word) : Word := (x &&& y) ^^^ (~~~x &&& z)

/-- `Maj(x, y, z)` (43_hash_hmac.md rule R167). -/
def maj256 (x y z : Word) : Word := (x &&& y) ^^^ (x &&& z) ^^^ (y &&& z)

/-- `BSIG0(x)` (43_hash_hmac.md rule R167). -/
def bsig0 (x : Word) : Word := rotr 2 x ^^^ rotr 13 x ^^^ rotr 22 x

/-- `BSIG1(x)` (43_hash_hmac.md rule R167). -/
def bsig1 (x : Word) : Word := rotr 6 x ^^^ rotr 11 x ^^^ rotr 25 x

/-- `SSIG0(x)` (43_hash_hmac.md rule R167). -/
def ssig0 (x : Word) : Word := rotr 7 x ^^^ rotr 18 x ^^^ shr 3 x

/-- `SSIG1(x)` (43_hash_hmac.md rule R167). -/
def ssig1 (x : Word) : Word := rotr 17 x ^^^ rotr 19 x ^^^ shr 10 x

/-- `n` more words of the SHA-256 message schedule, newest word first: `W[t-2]`, `W[t-7]`, `W[t-15]` and `W[t-16]` are
at positions 1, 6, 14 and 15 (43_hash_hmac.md rule R168). -/
def extend256 : Nat → List Word → List Word
  | 0, w => w
  | n + 1, w => extend256 n ((ssig1 (w.getD 1 0) + w.getD 6 0 + ssig0 (w.getD 14 0) + w.getD 15 0) :: w)

/-- `W[0] .. W[63]` of a block (43_hash_hmac.md rules R160 and R168). -/
def schedule256 (block : List Byte) : List Word := (extend256 48 (wordsBE block).reverse).reverse

/-- `T1` of an iteration (43_hash_hmac.md rule R168). -/
def t1 (k w : Word) (v : Chain256) : Word := v.h + bsig1 v.e + ch256 v.e v.f v.g + k + w

/-- `T2` of an iteration (43_hash_hmac.md rule R168). -/
def t2 (v : Chain256) : Word := bsig0 v.a + maj256 v.a v.b v.c

/-- One iteration of the SHA-256 compression with its round constant and schedule word (43_hash_hmac.md rule R168). -/
def round256 (k w : Word) (v : Chain256) : Chain256 :=
  { a := t1 k w v + t2 v, b := v.a, c := v.b, d := v.c, e := v.d + t1 k w v, f := v.e, g := v.f, h := v.g }

/-- The iterations over the round constants and the schedule in step (43_hash_hmac.md rule R168). -/
def rounds256 : List Word → List Word → Chain256 → Chain256
  | k :: ks, w :: ws, v => rounds256 ks ws (round256 k w v)
  | _, _, v => v

/-- `C256(H, B)` (43_hash_hmac.md rule R168). -/
def compress256 (v : Chain256) (block : List Byte) : Chain256 :=
  let r := rounds256 k256 (schedule256 block) v
  { a := v.a + r.a, b := v.b + r.b, c := v.c + r.c, d := v.d + r.d,
    e := v.e + r.e, f := v.f + r.f, g := v.g + r.g, h := v.h + r.h }

/-- `be32` of each chaining word in order (43_hash_hmac.md rules R169 and R172). -/
def serialise256 (v : Chain256) : List Byte :=
  be32 v.a ++ be32 v.b ++ be32 v.c ++ be32 v.d ++ be32 v.e ++ be32 v.f ++ be32 v.g ++ be32 v.h

/-- `SHA256(msg)` (43_hash_hmac.md rule R169). -/
def sha256 (msg : List Byte) : List Byte := serialise256 ((paddedBlocks msg).foldl compress256 iv256)

end Sys2Proof.Machine
end

