-- ==== Sys2Proof/Machine/Hmac.lean ====
section
/-! DEFINITION. The selected hash, HMAC (43_hash_hmac.md rules R170 and R171), and the four-block form of the MAC of a
counter (rule R172), which the machine does not use and a statement proves equal to it. -/

namespace Sys2Proof.Machine

/-- `HASH` (43_hash_hmac.md rule R170). -/
def hash : Alg → List Byte → List Byte
  | .sha1 => sha1
  | .sha256 => sha256

/-- The digest length `D` (43_hash_hmac.md rule R170). -/
def digestLength : Alg → Nat
  | .sha1 => 20
  | .sha256 => 32

/-- `K0`: the key padded on the right with zeros to one block (43_hash_hmac.md rule R171). -/
def keyBlock (key : List Byte) : List Byte := key ++ List.replicate (64 - key.length) 0x00

/-- `ipadK` (43_hash_hmac.md rule R171). -/
def ipadKey (key : List Byte) : List Byte := (keyBlock key).map (· ^^^ 0x36)

/-- `opadK` (43_hash_hmac.md rule R171). -/
def opadKey (key : List Byte) : List Byte := (keyBlock key).map (· ^^^ 0x5C)

/-- `HMAC(alg, K, text)` for a key of at most 64 bytes (43_hash_hmac.md rule R171). -/
def hmac (alg : Alg) (key message : List Byte) : List Byte :=
  hash alg (opadKey key ++ hash alg (ipadKey key ++ message))

/-- `serialise( C( C(IV, first), second ) )` of the selected hash (43_hash_hmac.md rule R172). -/
def twoBlocks (alg : Alg) (first second : List Byte) : List Byte :=
  match alg with
  | .sha1 => serialise1 (compress1 (compress1 iv1 first) second)
  | .sha256 => serialise256 (compress256 (compress256 iv256 first) second)

/-- `B2`, the block of the counter (43_hash_hmac.md rule R172). -/
def counterBlock (ctr : BitVec 64) : List Byte :=
  be64 ctr ++ [0x80] ++ List.replicate 47 0x00 ++ be64 576

/-- `B4`, the block of the inner digest (43_hash_hmac.md rule R172). -/
def innerBlock (alg : Alg) (inner : List Byte) : List Byte :=
  inner ++ [0x80] ++ List.replicate (55 - digestLength alg) 0x00
    ++ be64 (BitVec.ofNat 64 (8 * (64 + digestLength alg)))

/-- `MAC(alg, K, ctr)` as exactly four compression calls (43_hash_hmac.md rule R172). -/
def macFourBlocks (alg : Alg) (key : List Byte) (ctr : BitVec 64) : List Byte :=
  twoBlocks alg (opadKey key) (innerBlock alg (twoBlocks alg (ipadKey key) (counterBlock ctr)))

end Sys2Proof.Machine
end

