-- ==== Sys2Proof/Machine/Hotp.lean ====
section
/-! DEFINITION. The command `HOTP` (44_hotp.md). -/

namespace Sys2Proof.Machine

/-- `mac = HMAC(cfg.alg, key[0..keylen), be64(ctr))` (44_hotp.md rules R192 and R193). -/
def hotpMac (e : Engine) : List Byte := hmac e.cfg.alg (secret e) (be64 e.ctr)

/-- `o = mac[D-1] & 0x0F` (44_hotp.md rule R194). -/
def truncOffset (mac : List Byte) : Nat := (mac.getD (mac.length - 1) 0 &&& 0x0F).toNat

/-- `p = {mac[o] & 0x7F, mac[o+1], mac[o+2], mac[o+3]}` (44_hotp.md rule R194). -/
def dynamicTrunc (mac : List Byte) : Word :=
  let o := truncOffset mac
  wordBE (mac.getD o 0 &&& 0x7F) (mac.getD (o + 1) 0) (mac.getD (o + 2) 0) (mac.getD (o + 3) 0)

/-- `v = p mod 10^d` (44_hotp.md rule R195). -/
def reduceCode (p : Word) (d : Nat) : Word := BitVec.ofNat 32 (p.toNat % 10 ^ d)

/-- `DEC(v, d)` (44_hotp.md rule R196). -/
def decimalString (v d : Nat) : List Byte :=
  (List.range d).map fun i => BitVec.ofNat 8 (0x30 + v / 10 ^ (d - 1 - i) % 10)

/-- `digest[i]`: the MAC's words, then 0 (44_hotp.md rule R190). -/
def digestWords (mac : List Byte) : Vector Word 8 :=
  Vector.ofFn fun i =>
    if i.val < mac.length / 4 then
      wordBE (mac.getD (4 * i.val) 0) (mac.getD (4 * i.val + 1) 0) (mac.getD (4 * i.val + 2) 0)
        (mac.getD (4 * i.val + 3) 0)
    else 0

/-- The updates of a successful `HOTP` (44_hotp.md rule R190). -/
def hotpResults (e : Engine) : Engine :=
  let d := e.cfg.digits.toNat
  let mac := hotpMac e
  let p := dynamicTrunc mac
  let v := reduceCode p d
  { e with
    digest := digestWords mac
    trunc := p
    code := v
    codeStr := bufferOf 8 (decimalString v.toNat d)
    status := statusRvalid e.status true }

/-- The command's own rule: the two checks in their order, then the computation (44_hotp.md rules R190 and R191). -/
def hotpCommand (e : Engine) : Except CmdError Engine :=
  if e.cfg.digits.toNat < Config.digitsMin ∨ e.cfg.digits.toNat > Config.digitsMax then .error .digits
  else if e.keylen.toNat > Config.keyMax then .error .keylen
  else .ok (hotpResults e)

/-- `HOTP`, 44_hotp.md rule R190; an error clears `RVALID` (41_command_sequencer.md rule R123). -/
def execHotp (s : State) : Host.Outcome State Fault Refusal :=
  complete false hotpCommand s

end Sys2Proof.Machine
end

