-- ==== Sys2Proof/Machine/Sequencer.lean ====
section
/-! DEFINITION. The commands `CLEAR` and the illegal words (41_command_sequencer.md). -/

namespace Sys2Proof.Machine

/-- The updates of `CLEAR`, 41_command_sequencer.md rule R124: every secret-bearing and result element is zeroed, the
text buffer too when the codec is present; `cfg` and `LOCKERR` stay. -/
def clearCommand (hasB32 : Bool) (e : Engine) : Except CmdError Engine :=
  .ok { e with
    key := Vector.replicate 64 0
    keylen := 0
    ctr := 0
    digest := Vector.replicate 8 0
    trunc := 0
    code := 0
    codeStr := Vector.replicate 8 0
    txt := if hasB32 then Vector.replicate 104 0 else e.txt
    txtlen := if hasB32 then 0 else e.txtlen
    status := statusRvalid e.status false }

/-- `CLEAR`, 41_command_sequencer.md rule R124. -/
def execClear (s : State) : Host.Outcome State Fault Refusal :=
  complete true (clearCommand s.hasB32) s

/-- An illegal word raises `E_CMD`, whatever the operands hold (41_command_sequencer.md rules R122 and R125). -/
def illegalCommand (_w : Word) (_e : Engine) : Except CmdError Engine := .error .cmd

/-- An illegal command word, 41_command_sequencer.md rule R125. -/
def execIllegal (w : Word) (s : State) : Host.Outcome State Fault Refusal :=
  complete true (illegalCommand w) s

end Sys2Proof.Machine
end

