-- ==== Sys2Proof/Machine/Dispatch.lean ====
section
/-! DEFINITION. The meaning of each instruction, one arm per constructor. The arm of a host transaction is that
transaction; the arm of a command word is the completion of that command (41_command_sequencer.md rules R121 and
R122). Which of them a step takes, and when a completion is enabled, is Machine/Agents.lean's. -/

namespace Sys2Proof.Machine

def exec (i : Instr) (s : State) : Host.Outcome State Fault Refusal :=
  match i with
  | .rd idx data => Sys2Proof.Machine.execRd idx data s
  | .wr idx data => Sys2Proof.Machine.execWr idx data s
  | .hotp => Sys2Proof.Machine.execHotp s
  | .b32enc => Sys2Proof.Machine.execB32enc s
  | .b32dec => Sys2Proof.Machine.execB32dec s
  | .clear => Sys2Proof.Machine.execClear s
  | .illegal word => Sys2Proof.Machine.execIllegal word s

end Sys2Proof.Machine
end

