-- ==== Sys2Proof/Machine/Agents.lean ====
section
/-! DEFINITION. The three kinds of atomic step of 00_scope.md rule R12, and which one a state takes next: the host's
transaction, the engine's completion, the reset. -/

namespace Sys2Proof.Machine

/-- A host transaction: the 40 bits on the port are decoded and run at once, whatever the engine is doing
(20_memory.md rules R64 and R67). -/
def hostStep (ht : Transaction) (s : State) : Host.Outcome State Fault Refusal :=
  exec (decodeTransaction ht) s

/-- The engine's turn: the completion of the latched command, enabled exactly when `status.busy = 1`
(41_command_sequencer.md rules R121 and R122); an idle engine takes no step (60_exceptions.md rule R224). -/
def engineStep (s : State) : Host.Outcome State Fault Refusal :=
  if s.eng.status.busy then exec (decodeCommand s.hasB32 s.eng.cmdLatch) s
  else .next { s with rsp := none }

/-- A clock edge with `rst = 1`, enabled in every state: every element takes its reset value
(70_reset_and_hazards.md rules R240 and R241). -/
def resetStep (s : State) : Host.Outcome State Fault Refusal :=
  .next { s with eng := Engine.reset, rsp := none }

/-- The next step of the machine: the head of the schedule, and with no step scheduled the engine's own turn (log
entries 2 and 3). -/
def agentStep (s : State) : Host.Outcome State Fault Refusal :=
  match s.events with
  | [] => engineStep s
  | .request ht :: rest => hostStep ht { s with events := rest }
  | .completion :: rest => engineStep { s with events := rest }
  | .reset _ :: rest => resetStep { s with events := rest }

end Sys2Proof.Machine
end

