-- ==== Sys2Proof/Machine/Step.lean ====
section
/-! DEFINITION. One step of the machine, and how a table word comes to be the next one it runs. -/

namespace Sys2Proof.Machine

/-- One step (00_scope.md rule R12). It always answers a next state (60_exceptions.md rule R212). -/
def step (s : State) : Host.Outcome State Fault Refusal := agentStep s

/-- `s` about to run the table word `w` in its next step. A word of 40 bits is a transaction the host presents next;
any other is a command word as the engine has just accepted it (41_command_sequencer.md rule R120), with the engine's
turn next (log entry 6). -/
def State.withFetchWord (s : State) (nbits w : Nat) : State :=
  if nbits = 40 then { s with events := .request (BitVec.ofNat 40 w) :: s.events }
  else { s with eng := accept s.eng (BitVec.ofNat 32 w), events := .completion :: s.events }

end Sys2Proof.Machine
end

