-- ==== Sys2Proof/Machine/HostProgram.lean ====
section
/-! DEFINITION. The host's side of the port: the byte offsets of a bus bridge (00_scope.md rule R11, 20_memory.md rules
R60 and R62) and the assembler notation with its pseudo-instructions (30_encoding.md rules R87 and R88), each as the
transactions it stands for. No step of the machine uses this file. -/

namespace Sys2Proof.Machine

/-- The word index that a host access of `n` bytes at byte offset `addr` reaches: a whole aligned word inside
`0x000..0x1FC`. Any other access cannot be expressed at the port (20_memory.md rule R62). -/
def indexOfByteOffset (addr n : Nat) : Option Index :=
  if n = 4 ∧ addr % 4 = 0 ∧ addr ≤ 0x1FC then some (BitVec.ofNat 7 (addr / 4)) else none

/-- `RD <reg>` (30_encoding.md rule R87): `DATA` is 0 in every listing. -/
def rdReg (r : Reg) : Transaction := encodeTransaction false (regIndex r) 0

/-- `WR <reg>, <value>` (30_encoding.md rule R87). -/
def wrReg (r : Reg) (v : Word) : Transaction := encodeTransaction true (regIndex r) v

/-- `CMD <mnemonic>`: `WR CMD, <full word of rule R83>` (30_encoding.md rule R88). None for a host transaction, which is
no command word. -/
def cmdOf (i : Instr) : Option (List Transaction) :=
  match encode i with
  | .cw w => some [wrReg .cmd w]
  | .ht _ => none

/-- `SETCFG d, a, e`: `WR CFG, (e << 8) | (a << 4) | d` (30_encoding.md rule R88). -/
def setCfg (d a e : Word) : List Transaction := [wrReg .cfg ((e <<< 8) ||| (a <<< 4) ||| d)]

/-- `LDCTR c` (30_encoding.md rule R88). -/
def ldCtr (c : BitVec 64) : List Transaction := [wrReg .ctrHi (ctrHiWord c), wrReg .ctrLo (ctrLoWord c)]

/-- Word `j` of the byte sequence that a load pseudo-instruction writes: `p = b ++ rep(0x00, 3)` (30_encoding.md rule
R88). -/
def loadWord (b : List Byte) (j : Nat) : Word :=
  let p := b ++ List.replicate 3 0x00
  wordBE (p.getD (4 * j) 0) (p.getD (4 * j + 1) 0) (p.getD (4 * j + 2) 0) (p.getD (4 * j + 3) 0)

/-- `LDKEY b`: the length, then `ceil(n/4)` words in rising order; none for a sequence longer than the buffer
(30_encoding.md rule R88). -/
def ldKey (b : List Byte) : Option (List Transaction) :=
  if b.length ≤ Config.keyMax then
    some (wrReg .keylen (BitVec.ofNat 32 b.length) ::
      (List.range ((b.length + 3) / 4)).map fun j => wrReg (.key (Fin.ofNat 16 j)) (loadWord b j))
  else none

/-- `LDTXT t`, as `LDKEY` with `TXT` for `KEY` (30_encoding.md rule R88). -/
def ldTxt (t : List Byte) : Option (List Transaction) :=
  if t.length ≤ Config.txtMax then
    some (wrReg .txtlen (BitVec.ofNat 32 t.length) ::
      (List.range ((t.length + 3) / 4)).map fun j => wrReg (.txt (Fin.ofNat 26 j)) (loadWord t j))
  else none

/-- One poll of `WAIT`: `RD STATUS` (30_encoding.md rule R88). -/
def waitPoll : Transaction := rdReg .status

/-- `WAIT` ends when the value read has bit 0 (`BUSY`) = 0 (30_encoding.md rule R88). -/
def waitEnds (value : Word) : Bool := !value.getLsbD 0

/-- `ACK`: `WR STATUS, 0x00000002` (30_encoding.md rule R88). -/
def ack : List Transaction := [wrReg .status 0x00000002]

end Sys2Proof.Machine
end

