-- ==== Sys2Proof/Machine/Ports.lean ====
section
/-! DEFINITION. The engine's wires (70_reset_and_hazards.md rule R243) and the atomic steps one clock cycle stands for.
No step of the machine uses this file: a schedule of events may come from here or from anywhere. -/

namespace Sys2Proof.Machine

/-- The input wires in one clock cycle (70_reset_and_hazards.md rule R243). -/
structure PortIn where
  rst : Bool
  reqValid : Bool
  reqWrite : Bool
  reqAddr : Index
  reqWdata : Word
  deriving DecidableEq, Repr

/-- The output wires of a step: `rsp_rdata`, valid only in the cycle of a request, and `irq`
(70_reset_and_hazards.md rule R243). -/
structure PortOut where
  rspRdata : Option Word
  irq : Bool
  deriving DecidableEq, Repr

/-- The output wires as a state shows them. -/
def portOut (s : State) : PortOut := { rspRdata := s.rsp, irq := irq s.eng }

/-- The transaction the wires present: `HT = {req_write, req_addr, req_wdata}` (30_encoding.md rule R81). -/
def presented (p : PortIn) : Option Transaction :=
  if p.reqValid then some (encodeTransaction p.reqWrite p.reqAddr p.reqWdata) else none

/-- The steps of one clock cycle. With `rst = 1` it is a reset, and a transaction presented with it is discarded
(70_reset_and_hazards.md rule R240). Otherwise the transaction presented comes first, and the engine's completion
second if it falls in this cycle (20_memory.md rule R67). -/
def cycleEvents (p : PortIn) (completes : Bool) : List Event :=
  if p.rst then [.reset (presented p)]
  else (presented p).toList.map .request ++ (if completes then [.completion] else [])

end Sys2Proof.Machine
end

