-- ==== Sys2Proof/Safety.lean ====
section
/-! DEFINITION. The terms the statements use: the invariants of 10_state.md rule R37, runs of several steps, and which
instruction a state runs next. -/

namespace Sys2Proof.Machine

/-- "code_str is the string of code as in rule R31" for a code of `d` digits: the decimal digits, most significant
first, then 0x00 fill (10_state.md rule R31). -/
def codeStrOf (code : Word) (d : Nat) : Vector Byte 8 :=
  Vector.ofFn fun i =>
    if i.val < d then BitVec.ofNat 8 (0x30 + code.toNat / 10 ^ (d - 1 - i.val) % 10) else 0

/-- The result registers belong together as 10_state.md rule R37 says, for some legal digit count. -/
def resultsAgree (e : Engine) : Prop :=
  ∃ d, Config.digitsMin ≤ d ∧ d ≤ Config.digitsMax ∧ e.code.toNat = e.trunc.toNat % 10 ^ d ∧
    e.codeStr = codeStrOf e.code d

/-- The invariants of 10_state.md rule R37. -/
structure Inv (e : Engine) : Prop where
  busyNotDone : e.status.busy = true → e.status.done = false
  busyNoError : e.status.busy = true → e.status.errcode = 0
  truncTopBit : e.trunc.getLsbD 31 = false
  codeBound : e.code.toNat < 10 ^ 8
  errcodeLegal : e.status.errcode.toNat ≤ 6
  resultsValid : e.status.rvalid = true → resultsAgree e

/-- Without the codec the text buffer and its length do not exist (10_state.md rule R32); the model's fields for them
stay at zero (log entry 7). -/
def CodecAbsent (s : State) : Prop :=
  s.hasB32 = false → s.eng.txt = Vector.replicate 104 0 ∧ s.eng.txtlen = 0

/-- `n` steps, stopping where the machine would stop. -/
def stepN : Nat → State → Host.Outcome State Fault Refusal
  | 0, s => .next s
  | n + 1, s =>
    match step s with
    | .next t => stepN n t
    | .fault r => .fault r
    | .refused r => .refused r

/-- The command instructions (format `CW`), whose meaning is a completion (41_command_sequencer.md rule R121). -/
def isCommand : Instr → Bool
  | .rd _ _ | .wr _ _ => false
  | .hotp | .b32enc | .b32dec | .clear | .illegal _ => true

/-- The instruction the next step runs; none when it runs none (a reset, or the turn of an idle engine). -/
def nextInstr (s : State) : Option Instr :=
  match s.events with
  | .request ht :: _ => some (decodeTransaction ht)
  | [] | .completion :: _ =>
    if s.eng.status.busy then some (decodeCommand s.hasB32 s.eng.cmdLatch) else none
  | .reset _ :: _ => none

/-- The next step is a reset (70_reset_and_hazards.md rule R240). -/
def resetNext (s : State) : Bool :=
  match s.events with
  | .reset _ :: _ => true
  | [] | .request _ :: _ | .completion :: _ => false

/-- The engine with `LOCKERR` cleared: what two engines share that differ at most in that flag. -/
def withoutLockErr (e : Engine) : Engine := { e with status := { e.status with lockerr := false } }

end Sys2Proof.Machine
end

