-- ==== Sys2Proof/Certificates/Slice0/Obligations.lean ====
section
/-! DEFINITION. The statements for the provers. Where a statement gives a value, it gives it as the spec's pseudocode
does, in numbers, not through the model's own function for it. The fields `hasB32`, `events` and `rsp` of a state are the
model's own (log entries 1, 2 and 4): where a statement says what becomes of them it cites no rule for that. -/

open Sys2Proof Sys2Proof.Machine

namespace Sys2Proof.Spec

/-- A flag as the number 0 or 1. -/
def bit (b : Bool) : Nat := b.toNat

/-- Byte `j` of a sequence as a number, 0 past its end. -/
def byteAt (bytes : List Byte) (j : Nat) : Nat := (bytes.getD j 0).toNat

/-- Bytes `4n` .. `4n+3` as a number, the first the most significant (00_scope.md rule R9). -/
def word4 (bytes : List Byte) (n : Nat) : Nat :=
  16777216 * byteAt bytes (4 * n) + 65536 * byteAt bytes (4 * n + 1) + 256 * byteAt bytes (4 * n + 2)
    + byteAt bytes (4 * n + 3)

/-- A byte sequence as a number, the first byte the most significant. -/
def bigEndian (bytes : List Byte) : Nat := bytes.foldl (fun n b => 256 * n + b.toNat) 0

/-- `STATUS_value` (40_host_access.md rule R100), bit by bit. -/
def statusValue (s : Status) : Nat :=
  bit s.busy + 2 * bit s.done + 4 * bit s.rvalid + 8 * bit s.lockerr + 16 * s.errcode.toNat

/-- `ID_value` (40_host_access.md rule R100). -/
def idValue (hasB32 : Bool) : Nat := 0x484F5410 + bit hasB32

/-- The value of the pseudocode `RD(idx)` of 40_host_access.md rule R100, arm by arm. -/
def rdValue (hasB32 : Bool) (e : Engine) (i : Nat) : Nat :=
  if i = 0x01 then statusValue e.status
  else if i = 0x03 then idValue hasB32
  else if e.status.busy then 0
  else if i = 0x00 then 0
  else if i = 0x02 then
    e.cfg.digits.toNat + 16 * bit (e.cfg.alg == .sha256) + 256 * bit e.cfg.ie
  else if i = 0x04 then e.keylen.toNat
  else if i = 0x05 ∧ hasB32 then e.txtlen.toNat
  else if i = 0x06 then e.ctr.toNat / 2 ^ 32
  else if i = 0x07 then e.ctr.toNat % 2 ^ 32
  else if i = 0x08 then e.code.toNat
  else if i = 0x09 then e.trunc.toNat
  else if i = 0x0A then word4 e.codeStr.toList 0
  else if i = 0x0B then word4 e.codeStr.toList 1
  else if 0x10 ≤ i ∧ i ≤ 0x17 then (e.digest.toList.getD (i - 0x10) 0).toNat
  else if 0x20 ≤ i ∧ i ≤ 0x2F then word4 e.key.toList (i - 0x20)
  else if 0x40 ≤ i ∧ i ≤ 0x59 ∧ hasB32 then word4 e.txt.toList (i - 0x40)
  else 0

/-- The lockable writable word indices, 40_host_access.md rule R102. -/
def lockableIndex (hasB32 : Bool) (i : Nat) : Prop :=
  i = 0x00 ∨ i = 0x02 ∨ i = 0x04 ∨ i = 0x06 ∨ i = 0x07 ∨ (0x20 ≤ i ∧ i ≤ 0x2F) ∨
    (hasB32 = true ∧ (i = 0x05 ∨ (0x40 ≤ i ∧ i ≤ 0x59)))

/-- The mapped read-only word indices but `STATUS`, 20_memory.md rules R61 and R66. -/
def readOnlyIndex (i : Nat) : Prop := i = 0x03 ∨ (0x08 ≤ i ∧ i ≤ 0x0B) ∨ (0x10 ≤ i ∧ i ≤ 0x17)

/-- The unmapped word indices, 20_memory.md rules R61 and R65. -/
def unmappedIndex (hasB32 : Bool) (i : Nat) : Prop :=
  (0x0C ≤ i ∧ i ≤ 0x0F) ∨ (0x18 ≤ i ∧ i ≤ 0x1F) ∨ (0x30 ≤ i ∧ i ≤ 0x3F) ∨ 0x5A ≤ i ∨
    (hasB32 = false ∧ (i = 0x05 ∨ (0x40 ≤ i ∧ i ≤ 0x59)))

/-- Byte `k` of a word, byte 0 in bits 31:24. -/
def byteOf (v : Word) (k : Nat) : Byte := BitVec.ofNat 8 (v.toNat / 256 ^ (3 - k))

/-- A buffer whose bytes `4n` .. `4n+3` are those of `v` and whose other bytes are those of `buf`. -/
def putWord {k : Nat} (buf : Vector Byte k) (n : Nat) (v : Word) : Vector Byte k :=
  Vector.ofFn fun j => if j.val / 4 = n then byteOf v (j.val % 4) else buf[j]

/-- The engine after the arms of the pseudocode `WR(idx, v)` of 40_host_access.md rule R101, but for the first arm's
two flags, the drop and the accept, which are spelled out field by field. -/
def wrEffect (hasB32 : Bool) (e : Engine) (i : Nat) (v : Word) : Engine :=
  if i = 0x01 then
    { e with status := { e.status with
        done := e.status.done && !v.getLsbD 1, lockerr := e.status.lockerr && !v.getLsbD 3 } }
  else if e.status.busy = true ∧
      (i = 0x00 ∨ i = 0x02 ∨ i = 0x04 ∨ i = 0x06 ∨ i = 0x07 ∨ (0x20 ≤ i ∧ i ≤ 0x2F) ∨
        (hasB32 = true ∧ (i = 0x05 ∨ (0x40 ≤ i ∧ i ≤ 0x59)))) then
    { e with status := { e.status with lockerr := true } }
  else if i = 0x00 then
    { e with cmdLatch := v, status := { e.status with busy := true, done := false, errcode := 0 } }
  else if i = 0x02 then
    { e with cfg := {
        digits := BitVec.ofNat 4 v.toNat, alg := if v.getLsbD 4 then .sha256 else .sha1, ie := v.getLsbD 8 } }
  else if i = 0x04 then { e with keylen := BitVec.ofNat 7 v.toNat }
  else if i = 0x05 ∧ hasB32 then { e with txtlen := BitVec.ofNat 8 v.toNat }
  else if i = 0x06 then { e with ctr := BitVec.ofNat 64 (2 ^ 32 * v.toNat + e.ctr.toNat % 2 ^ 32) }
  else if i = 0x07 then { e with ctr := BitVec.ofNat 64 (2 ^ 32 * (e.ctr.toNat / 2 ^ 32) + v.toNat) }
  else if 0x20 ≤ i ∧ i ≤ 0x2F then { e with key := putWord e.key (i - 0x20) v }
  else if 0x40 ≤ i ∧ i ≤ 0x59 ∧ hasB32 then { e with txt := putWord e.txt (i - 0x40) v }
  else e

/-- The flags of a completion with error code `code` (41_command_sequencer.md rule R121). -/
def completedStatus (s : Status) (rvalid : Bool) (code : BitVec 4) : Status :=
  { busy := false, done := true, rvalid := rvalid, lockerr := s.lockerr, errcode := code }

/-- The state after a completion that writes `STATUS` and nothing else (41_command_sequencer.md rule R123). -/
def errorState (s : State) (rvalid : Bool) (code : BitVec 4) : State :=
  { s with eng := { s.eng with status := completedStatus s.eng.status rvalid code } }

/-- An outcome is the next state `t`, whatever it shows as the answer on the port. -/
def RunsTo (o : Host.Outcome State Fault Refusal) (t : State) : Prop :=
  ∃ answer, o = .next { t with rsp := answer }

/-- What the host reads at a word index after reset (10_state.md rule R36). -/
def resetRead (hasB32 : Bool) (idx : Index) : Word :=
  if idx = 0x02 then 0x00000006
  else if idx = 0x03 then (if hasB32 then 0x484F5411 else 0x484F5410)
  else 0x00000000

/-- The bits of `v` that a lockable register other than `CMD` stores and reads back (40_host_access.md rule R101). -/
def storedBits (idx : Index) (v : Word) : Word :=
  if idx = 0x02 then v &&& 0x0000011F
  else if idx = 0x04 then v &&& 0x0000007F
  else if idx = 0x05 then v &&& 0x000000FF
  else v

/-- `mac = HMAC(cfg.alg, key[0..keylen), be64(ctr))` (44_hotp.md rule R193). -/
def macOf (e : Engine) : List Byte := hmac e.cfg.alg (e.key.toList.take e.keylen.toNat) (be64 e.ctr)

/-- `D`, 20 for SHA-1 and 32 for SHA-256 (43_hash_hmac.md rule R170). -/
def macLength (e : Engine) : Nat := if e.cfg.alg = .sha256 then 32 else 20

/-- `o = mac[D-1] & 0x0F` (44_hotp.md rule R194). -/
def macOffset (e : Engine) : Nat := byteAt (macOf e) (macLength e - 1) % 16

/-- A letter in lower case, any other byte as it is. -/
def lowerCase (c : Byte) : Byte := if 0x41 ≤ c.toNat ∧ c.toNat ≤ 0x5A then c + 0x20 else c

/-- A byte the decoder accepts: `A`..`Z`, `a`..`z`, `2`..`7` or `=` (60_exceptions.md rule R210). -/
def acceptedChar (c : Byte) : Prop :=
  (0x41 ≤ c.toNat ∧ c.toNat ≤ 0x5A) ∨ (0x61 ≤ c.toNat ∧ c.toNat ≤ 0x7A) ∨
    (0x32 ≤ c.toNat ∧ c.toNat ≤ 0x37) ∨ c.toNat = 0x3D

/-- The value of an alphabet character in either case (42_base32.md rule R142). -/
def charValue (c : Byte) : Nat :=
  if c.toNat ≤ 0x37 then c.toNat - 0x32 + 26 else if c.toNat ≤ 0x5A then c.toNat - 0x41 else c.toNat - 0x61

/-- The characters of a text that are not `=` (42_base32.md rule R142). -/
def alphabetChars (t : List Byte) : List Byte := t.filter fun c => c != 0x3D

/-- The values of a text's alphabet characters as one number, the first the most significant. -/
def textNumber (t : List Byte) : Nat := (alphabetChars t).foldl (fun n c => 32 * n + charValue c) 0

/-- The count `m` of a text's alphabet characters is one that no whole number of bytes gives (42_base32.md rule R142). -/
def badCount (t : List Byte) : Prop :=
  (alphabetChars t).length % 8 = 1 ∨ (alphabetChars t).length % 8 = 3 ∨ (alphabetChars t).length % 8 = 6

/-- `B32D` raises `E_FORMAT` on a text (42_base32.md rule R142). -/
def badText (t : List Byte) : Prop := (∃ c ∈ t, ¬ acceptedChar c) ∨ badCount t

end Sys2Proof.Spec

open Sys2Proof.Spec

/-! ## Steps and the schedule -/

/-- A step whose turn is the host's runs the decoded transaction, and a step whose turn is the engine's runs the
decoded latched command when the engine is busy and nothing when it is idle (00_scope.md rule R12,
41_command_sequencer.md rules R121 and R122). The schedule is the model's (log entries 2 and 3). -/
def Obligations.StepRunsDecodedInstruction : Prop :=
  (∀ (s : State) (ht : Transaction) (rest : List Event), s.events = .request ht :: rest →
    (decodeTransaction ht).wellFormed s.hasB32 = true ∧
    step s = exec (decodeTransaction ht) { s with events := rest }) ∧
  (∀ (s : State) (rest : List Event), (s.events = .completion :: rest ∨ s.events = [] ∧ rest = []) →
    (s.eng.status.busy = true →
      (decodeCommand s.hasB32 s.eng.cmdLatch).wellFormed s.hasB32 = true ∧
      step s = exec (decodeCommand s.hasB32 s.eng.cmdLatch) { s with events := rest }) ∧
    (s.eng.status.busy = false → step s = .next { s with events := rest, rsp := none }))

/-- Every step answers a next state (60_exceptions.md rule R212). -/
def Obligations.EveryStepAnswersNextState : Prop :=
  (∀ s : State, ∃ t, step s = .next t) ∧
  (∀ (i : Instr) (s : State), ∃ t, exec i s = .next t)

/-- A reset is enabled in every state, busy or not, whatever transaction is presented with it, and leaves every element
of the engine at the value 10_state.md rule R36 lists; every register then reads as that rule says
(70_reset_and_hazards.md rule R240). -/
def Obligations.ResetFromEveryState : Prop :=
  ∀ (s : State) (p : Option Transaction) (rest : List Event), s.events = .reset p :: rest →
    ∃ t, step s = .next t ∧ t.hasB32 = s.hasB32 ∧ t.events = rest ∧ irq t.eng = false ∧
      (∀ j : Fin 64, t.eng.key[j] = 0) ∧ t.eng.keylen = 0 ∧ t.eng.ctr = 0 ∧
      t.eng.cfg = { digits := 6, alg := .sha1, ie := false } ∧
      t.eng.status = { busy := false, done := false, rvalid := false, lockerr := false, errcode := 0 } ∧
      (∀ j : Fin 8, t.eng.digest[j] = 0) ∧ t.eng.trunc = 0 ∧ t.eng.code = 0 ∧ (∀ j : Fin 8, t.eng.codeStr[j] = 0) ∧
      (∀ j : Fin 104, t.eng.txt[j] = 0) ∧ t.eng.txtlen = 0 ∧ t.eng.cmdLatch = 0 ∧
      ∀ (idx : Index) (data : Word), exec (.rd idx data) t = .next { t with rsp := some (resetRead s.hasB32 idx) }

/-! ## Host transactions -/

/-- `RD idx` (the transaction with `W = 0`) returns the value of the pseudocode of 40_host_access.md rule R100, whatever
the `DATA` field holds, and changes no state of the engine. -/
def Obligations.RdReturnsRegisterValue : Prop :=
  ∀ (idx : Index) (data : Word) (s : State),
    (∀ ht : Transaction, ht.toNat = 2 ^ 32 * idx.toNat + data.toNat → decodeTransaction ht = .rd idx data) ∧
    exec (.rd idx data) s =
      .next { s with rsp := some (BitVec.ofNat 32 (rdValue s.hasB32 s.eng idx.toNat)) }

/-- `WR idx, v` (the transaction with `W = 1`) has the effect of the pseudocode of 40_host_access.md rule R101, accept
and drop included, and no other. -/
def Obligations.WrHasRegisterEffect : Prop :=
  ∀ (idx : Index) (v : Word) (s : State),
    (∀ ht : Transaction, ht.toNat = 2 ^ 32 * (0x80 + idx.toNat) + v.toNat → decodeTransaction ht = .wr idx v) ∧
    exec (.wr idx v) s =
      .next { s with eng := wrEffect s.hasB32 s.eng idx.toNat v, rsp := some 0 }

/-- While busy every read but of `STATUS` and `ID` returns 0, and the stored values are not affected
(40_host_access.md rule R104). -/
def Obligations.BusyReadReturnsZero : Prop :=
  ∀ (idx : Index) (data : Word) (s : State), s.eng.status.busy = true → idx ≠ 0x01 → idx ≠ 0x03 →
    exec (.rd idx data) s = .next { s with rsp := some 0x00000000 }

/-- While busy a write of a lockable writable index is dropped and sets `LOCKERR`: the target keeps its value and no
command is accepted (40_host_access.md rules R102 and R105). -/
def Obligations.BusyWriteIsDropped : Prop :=
  ∀ (idx : Index) (v : Word) (s : State), s.eng.status.busy = true → lockableIndex s.hasB32 idx.toNat →
    exec (.wr idx v) s =
      .next { s with eng := { s.eng with status := { s.eng.status with lockerr := true } }, rsp := some 0 }

/-- A write of an unmapped or a read-only index is ignored, busy or not, and sets no `LOCKERR`; an unmapped index reads
0, busy or not (20_memory.md rules R65 and R66). -/
def Obligations.UnmappedAndReadOnlyIgnoreWrites : Prop :=
  ∀ (idx : Index) (v : Word) (s : State),
    (unmappedIndex s.hasB32 idx.toNat ∨ readOnlyIndex idx.toNat →
      exec (.wr idx v) s = .next { s with rsp := some 0 }) ∧
    (unmappedIndex s.hasB32 idx.toNat → exec (.rd idx v) s = .next { s with rsp := some 0x00000000 })

/-- Every word index is in exactly one of the four access classes of 20_memory.md rule R61: `STATUS`, lockable
writable, read-only, unmapped. -/
def Obligations.RegisterMapPartition : Prop :=
  ∀ (hasB32 : Bool) (idx : Index),
    (idx = 0x01 ∨ lockableIndex hasB32 idx.toNat ∨ readOnlyIndex idx.toNat ∨ unmappedIndex hasB32 idx.toNat) ∧
    ¬ (lockableIndex hasB32 idx.toNat ∧ readOnlyIndex idx.toNat) ∧
    ¬ (lockableIndex hasB32 idx.toNat ∧ unmappedIndex hasB32 idx.toNat) ∧
    ¬ (readOnlyIndex idx.toNat ∧ unmappedIndex hasB32 idx.toNat) ∧
    (idx = 0x01 → ¬ lockableIndex hasB32 idx.toNat ∧ ¬ readOnlyIndex idx.toNat ∧ ¬ unmappedIndex hasB32 idx.toNat) ∧
    ((regAt hasB32 idx).isNone = true ↔ unmappedIndex hasB32 idx.toNat) ∧
    (∀ r, regAt hasB32 idx = some r → regIndex r = idx ∧ (lockable r = true ↔ lockableIndex hasB32 idx.toNat))

/-- `WR STATUS, v` clears `DONE` if `v[1] = 1` and `LOCKERR` if `v[3] = 1`, and nothing else, whether busy or not;
clearing `DONE` lowers `irq` (40_host_access.md rule R103). -/
def Obligations.StatusWriteOneToClear : Prop :=
  ∀ (v : Word) (s : State), ∃ t, exec (.wr 0x01 v) s = .next t ∧
    t.eng.status.done = (if v.getLsbD 1 then false else s.eng.status.done) ∧
    t.eng.status.lockerr = (if v.getLsbD 3 then false else s.eng.status.lockerr) ∧
    t = { s with rsp := some 0, eng := { s.eng with status := { s.eng.status with
        done := t.eng.status.done, lockerr := t.eng.status.lockerr } } } ∧
    (v.getLsbD 1 = true → irq t.eng = false)

/-- No read has a side effect: any number of reads, at any word indices and in any state, change no element of the
engine, and a read after them returns what it would have returned before them (20_memory.md rule R64). -/
def Obligations.ReadsHaveNoSideEffect : Prop :=
  ∀ (s : State) (requests : List Transaction) (rest : List Event), (∀ ht ∈ requests, ht.getLsbD 39 = false) →
    s.events = requests.map .request ++ rest →
    ∃ t, stepN requests.length s = .next t ∧ t.eng = s.eng ∧ t.hasB32 = s.hasB32 ∧ t.events = rest ∧
      ∀ (idx : Index) (data : Word), ∃ u w, exec (.rd idx data) s = .next u ∧ exec (.rd idx data) t = .next w ∧
        w.rsp = u.rsp

/-- A value written by one transaction is seen by the next: on an idle engine the register file gives back the bits it
stores of `v` (70_reset_and_hazards.md rule R245, 30_encoding.md rule R89). -/
def Obligations.WrittenValueIsReadBack : Prop :=
  ∀ (idx : Index) (v data : Word) (s : State), s.eng.status.busy = false → idx ≠ 0x00 →
    lockableIndex s.hasB32 idx.toNat → ∃ t,
      exec (.wr idx v) s = .next t ∧
      exec (.rd idx data) t = .next { t with rsp := some (storedBits idx v) }

/-- A write changes no register it does not name: after `WR idx, v` of a lockable index other than `CMD`, every other
index reads as before, except `STATUS` after a dropped write (40_host_access.md rules R101 and R105). -/
def Obligations.WriteLeavesOtherRegisters : Prop :=
  ∀ (idx other : Index) (v data : Word) (s : State), lockableIndex s.hasB32 idx.toNat → idx ≠ 0x00 → other ≠ idx →
    (s.eng.status.busy = true → other ≠ 0x01) → ∃ t u w,
      exec (.wr idx v) s = .next t ∧ exec (.rd other data) t = .next u ∧ exec (.rd other data) s = .next w ∧
      u.rsp = w.rsp ∧ u.eng = t.eng

/-! ## Accept and completion -/

/-- A `WR CMD, w` on an idle engine is a command accept: the word is latched, `BUSY` is set, `DONE` and `ERRCODE` are
cleared, nothing else changes, every word is accepted, and `irq` goes low; on a busy engine it is no accept
(41_command_sequencer.md rule R120). -/
def Obligations.AcceptLatchesEveryWord : Prop :=
  ∀ (w : Word) (s : State),
    (s.eng.status.busy = false →
      exec (.wr 0x00 w) s = .next { s with rsp := some 0, eng := { s.eng with
        cmdLatch := w
        status := { s.eng.status with busy := true, done := false, errcode := 0 } } } ∧
      ∀ t, exec (.wr 0x00 w) s = .next t → irq t.eng = false) ∧
    (s.eng.status.busy = true →
      exec (.wr 0x00 w) s = .next { s with rsp := some 0, eng := { s.eng with
        status := { s.eng.status with lockerr := true } } })

/-- What every completion does, whichever command it completes: it answers a next state with `BUSY` clear, `DONE` set
and a legal error code, `irq` then equals `cfg.ie`, and `cfg`, `LOCKERR`, the latch and the schedule stay
(41_command_sequencer.md rule R121, 10_state.md rule R35). No answer stands on the port after it (log entry 4). -/
def Obligations.CompletionFlags : Prop :=
  ∀ (i : Instr) (s : State), isCommand i = true → ∃ t, exec i s = .next t ∧
    t.eng.status.busy = false ∧ t.eng.status.done = true ∧ t.eng.status.errcode.toNat ≤ 6 ∧
    irq t.eng = s.eng.cfg.ie ∧ t.eng.cfg = s.eng.cfg ∧ t.eng.status.lockerr = s.eng.status.lockerr ∧
    t.eng.cmdLatch = s.eng.cmdLatch ∧ t.hasB32 = s.hasB32 ∧ t.events = s.events ∧ t.rsp = none

/-- A command that completes with an error writes no operand, buffer or result register; of `STATUS` it changes `BUSY`,
`DONE` and `ERRCODE`, and `HOTP` clears `RVALID` (41_command_sequencer.md rule R123). -/
def Obligations.ErrorCompletionWritesOnlyStatus : Prop :=
  ∀ (i : Instr) (s t : State), isCommand i = true → exec i s = .next t → t.eng.status.errcode ≠ 0 →
    t = { errorState s (if i = .hotp then false else s.eng.status.rvalid) t.eng.status.errcode with rsp := t.rsp }

/-- The dispatch of the latched word, total over all 2^32 values, by the full words of 30_encoding.md rule R83
(41_command_sequencer.md rule R122, 30_encoding.md rule R84). -/
def Obligations.CommandDispatchByFullWord : Prop :=
  ∀ (hasB32 : Bool) (w : Word),
    decodeCommand hasB32 w =
      if w = 0x00000001 then .hotp
      else if w = 0x00000002 ∧ hasB32 = true then .b32enc
      else if w = 0x00000003 ∧ hasB32 = true then .b32dec
      else if w = 0x00000004 then .clear
      else .illegal w

/-- An illegal word completes with `E_CMD` and no other effect, whatever the operands hold: so does the instruction,
and so does the step of a busy engine whose latch holds any word but those of the four commands
(41_command_sequencer.md rule R125; without the codec `B32ENC` and `B32DEC` are illegal too, 30_encoding.md rule R84). -/
def Obligations.IllegalWordCompletesWithECmd : Prop :=
  (∀ (w : Word) (s : State), RunsTo (exec (.illegal w) s) (errorState s s.eng.status.rvalid 3)) ∧
  (∀ (s : State) (rest : List Event), s.eng.status.busy = true → s.events = .completion :: rest →
    s.eng.cmdLatch ≠ 0x00000001 → s.eng.cmdLatch ≠ 0x00000004 →
    (s.hasB32 = true → s.eng.cmdLatch ≠ 0x00000002 ∧ s.eng.cmdLatch ≠ 0x00000003) →
    RunsTo (step s) { errorState s s.eng.status.rvalid 3 with events := rest })

/-- `CLEAR` (the word 0x00000004) zeroises every secret-bearing and result element, the text buffer with the codec only,
and keeps `cfg` and `LOCKERR`; it cannot fail (41_command_sequencer.md rule R124). -/
def Obligations.ClearZeroises : Prop :=
  ∀ s : State, decodeCommand s.hasB32 0x00000004 = .clear ∧ ∃ t, exec .clear s = .next t ∧
    (∀ j : Fin 64, t.eng.key[j] = 0) ∧ t.eng.keylen = 0 ∧ t.eng.ctr = 0 ∧ (∀ j : Fin 8, t.eng.digest[j] = 0) ∧
    t.eng.trunc = 0 ∧ t.eng.code = 0 ∧ (∀ j : Fin 8, t.eng.codeStr[j] = 0) ∧
    (s.hasB32 = true → (∀ j : Fin 104, t.eng.txt[j] = 0) ∧ t.eng.txtlen = 0) ∧
    (s.hasB32 = false → t.eng.txt = s.eng.txt ∧ t.eng.txtlen = s.eng.txtlen) ∧
    t.eng.cfg = s.eng.cfg ∧ t.eng.status = completedStatus s.eng.status false 0 ∧
    t.eng.cmdLatch = s.eng.cmdLatch ∧ t.hasB32 = s.hasB32 ∧ t.events = s.events

/-- From code to cause: the code that the completion of a well-formed command writes is 0 or one of the six of the table
of 60_exceptions.md rule R210, and then the command and its operands are those the table gives for it. That every cause
gives its code is said by the statements of each command (`HotpComputesCode`, `B32encWritesText`, `B32decWritesKey`,
`IllegalWordCompletesWithECmd`), and that `ERRCODE` holds no other value in a reachable state by `InvariantHoldsAtReset` and
`StepKeepsInvariant`. -/
def Obligations.ErrorCodesHaveTheirCauses : Prop :=
  ∀ (i : Instr) (s t : State), isCommand i = true → i.wellFormed s.hasB32 = true → exec i s = .next t →
    let c := t.eng.status.errcode
    let txt := s.eng.txt.toList.take s.eng.txtlen.toNat
    c = 0 ∨
    c = 1 ∧ i = .hotp ∧ (s.eng.cfg.digits.toNat < 6 ∨ 8 < s.eng.cfg.digits.toNat) ∨
    c = 2 ∧ i = .b32dec ∧ badText txt ∨
    c = 3 ∧ (∃ w, i = .illegal w) ∨
    c = 4 ∧ (i = .hotp ∨ i = .b32enc) ∧ 64 < s.eng.keylen.toNat ∨
    c = 5 ∧ i = .b32dec ∧ 104 < s.eng.txtlen.toNat ∨
    c = 6 ∧ i = .b32dec ∧ 64 < 5 * (alphabetChars txt).length / 8

/-- No host transaction between accept and completion changes a running command: run any list of transactions on a busy
engine and then its completion, and the engine is what the completion alone would have made of it, but for `LOCKERR`
(41_command_sequencer.md rule R127, 40_host_access.md rule R105; 20_memory.md rule R69, which the spec marks as derived
from rules R120 and R105). -/
def Obligations.RunningCommandIsUndisturbed : Prop :=
  ∀ (s : State) (requests : List Transaction) (rest : List Event), s.eng.status.busy = true →
    s.events = requests.map .request ++ .completion :: rest →
    ∃ t u, stepN (requests.length + 1) s = .next t ∧ step { s with events := .completion :: rest } = .next u ∧
      withoutLockErr t.eng = withoutLockErr u.eng ∧ t.events = rest ∧ t.hasB32 = s.hasB32 ∧
      t.eng.status.busy = false ∧ t.eng.status.done = true

/-- A reset while busy abandons the command: run any list of transactions and then a reset, and no trace of the command
is left, `BUSY` and `DONE` are 0 and `irq` is low (70_reset_and_hazards.md rule R241). -/
def Obligations.ResetAbandonsCommand : Prop :=
  ∀ (s : State) (requests : List Transaction) (p : Option Transaction) (rest : List Event),
    s.events = requests.map .request ++ .reset p :: rest →
    ∃ t, stepN (requests.length + 1) s = .next t ∧ t.eng = State.reset.eng ∧ t.events = rest ∧
      t.eng.status.busy = false ∧ t.eng.status.done = false ∧ irq t.eng = false

/-! ## HOTP -/

/-- `HOTP` (the word 0x00000001): a digit count outside 6..8 gives `E_DIGITS`, else a key length above 64 gives
`E_KEYLEN`, and on either no result register is written and `RVALID` is cleared; else the digest registers, `TRUNC`,
`CODE`, `CODE_STR` and `RVALID` are as 44_hotp.md rule R190 computes them from the MAC of the secret and the counter,
and nothing else changes but the flags of the completion. -/
def Obligations.HotpComputesCode : Prop :=
  ∀ s : State, decodeCommand s.hasB32 0x00000001 = .hotp ∧
    (s.eng.cfg.digits.toNat < 6 ∨ 8 < s.eng.cfg.digits.toNat → RunsTo (exec .hotp s) (errorState s false 1)) ∧
    (6 ≤ s.eng.cfg.digits.toNat → s.eng.cfg.digits.toNat ≤ 8 → 64 < s.eng.keylen.toNat →
      RunsTo (exec .hotp s) (errorState s false 4)) ∧
    (6 ≤ s.eng.cfg.digits.toNat → s.eng.cfg.digits.toNat ≤ 8 → s.eng.keylen.toNat ≤ 64 →
      ∃ t, exec .hotp s = .next t ∧
        (∀ i : Fin 8,
          t.eng.digest[i].toNat = if i.val < macLength s.eng / 4 then word4 (macOf s.eng) i.val else 0) ∧
        t.eng.trunc.toNat = 16777216 * (byteAt (macOf s.eng) (macOffset s.eng) % 128)
          + 65536 * byteAt (macOf s.eng) (macOffset s.eng + 1) + 256 * byteAt (macOf s.eng) (macOffset s.eng + 2)
          + byteAt (macOf s.eng) (macOffset s.eng + 3) ∧
        t.eng.code.toNat = t.eng.trunc.toNat % 10 ^ s.eng.cfg.digits.toNat ∧
        (∀ i : Fin 8, t.eng.codeStr[i].toNat =
          if i.val < s.eng.cfg.digits.toNat then
            0x30 + t.eng.code.toNat / 10 ^ (s.eng.cfg.digits.toNat - 1 - i.val) % 10
          else 0) ∧
        t = { s with rsp := t.rsp, eng := { s.eng with
          digest := t.eng.digest, trunc := t.eng.trunc, code := t.eng.code, codeStr := t.eng.codeStr
          status := completedStatus s.eng.status true 0 } })

/-- The results of a successful `HOTP` are a function of the secret, the counter, the digit count and the algorithm at
accept and of nothing else (44_hotp.md rule R198). -/
def Obligations.HotpResultsArePure : Prop :=
  ∀ s s' t t' : State, s.eng.keylen = s'.eng.keylen →
    (∀ j : Fin 64, j.val < s.eng.keylen.toNat → s.eng.key[j] = s'.eng.key[j]) →
    s.eng.ctr = s'.eng.ctr → s.eng.cfg.digits = s'.eng.cfg.digits → s.eng.cfg.alg = s'.eng.cfg.alg →
    exec .hotp s = .next t → exec .hotp s' = .next t' → t.eng.status.errcode = 0 →
    t'.eng.status.errcode = 0 ∧ t'.eng.digest = t.eng.digest ∧ t'.eng.trunc = t.eng.trunc ∧
      t'.eng.code = t.eng.code ∧ t'.eng.codeStr = t.eng.codeStr ∧ t'.eng.status.rvalid = true

/-- Dynamic truncation: the offset is the low four bits of the last MAC byte, the four bytes from it always exist
(the last is at most byte 18 of 20 or 32), and the value is those bytes, most significant first, with the top bit
cleared (44_hotp.md rule R194). -/
def Obligations.TruncationWindowExists : Prop :=
  ∀ (alg : Alg) (key message mac : List Byte) (o : Nat), mac = hmac alg key message → o = truncOffset mac →
    mac.length = (if alg = .sha256 then 32 else 20) ∧ o = byteAt mac (mac.length - 1) % 16 ∧ o + 3 ≤ 18 ∧
    (dynamicTrunc mac).toNat =
      16777216 * (byteAt mac o % 128) + 65536 * byteAt mac (o + 1) + 256 * byteAt mac (o + 2) + byteAt mac (o + 3) ∧
    (dynamicTrunc mac).toNat ≤ 0x7FFFFFFF

/-- The code string is the decimal numeral of the code: exactly `d` ASCII digits, most significant first, whose value is
the code (44_hotp.md rule R196, 10_state.md rule R31). -/
def Obligations.DecimalStringDenotesCode : Prop :=
  ∀ v d : Nat, v < 10 ^ d →
    (decimalString v d).length = d ∧
    (∀ c ∈ decimalString v d, 0x30 ≤ c.toNat ∧ c.toNat ≤ 0x39) ∧
    (decimalString v d).foldl (fun n c => 10 * n + (c.toNat - 0x30)) 0 = v

/-- What the host reads after a successful `HOTP` (44_hotp.md rule R197): the MAC's words, then 0, in `DIGEST0..7`; the
code string's first four bytes in `CODE_STR0` and the rest, with 0x00 fill, in `CODE_STR1`. -/
def Obligations.HotpResultLayout : Prop :=
  ∀ s t : State, exec .hotp s = .next t → t.eng.status.errcode = 0 →
    (∀ i : Nat, i < 8 → (readIndex t.hasB32 t.eng (BitVec.ofNat 7 (0x10 + i))).toNat =
      (if 4 * i < (hotpMac s.eng).length then word4 (hotpMac s.eng) i else 0)) ∧
    (readIndex t.hasB32 t.eng 0x0A).toNat =
      word4 (decimalString t.eng.code.toNat s.eng.cfg.digits.toNat) 0 ∧
    (readIndex t.hasB32 t.eng 0x0B).toNat =
      word4 (decimalString t.eng.code.toNat s.eng.cfg.digits.toNat) 1 ∧
    readIndex t.hasB32 t.eng 0x08 = t.eng.code ∧ readIndex t.hasB32 t.eng 0x09 = t.eng.trunc ∧
    (readIndex t.hasB32 t.eng 0x01).getLsbD 2 = true

/-- The four-block form: for a key of at most 64 bytes and a counter, HMAC is exactly four compression calls
(43_hash_hmac.md rule R172, which the spec marks as derived from rules R161, R165, R169 and R171). -/
def Obligations.MacIsFourCompressions : Prop :=
  ∀ (alg : Alg) (key : List Byte) (ctr : BitVec 64), key.length ≤ 64 →
    macFourBlocks alg key ctr = hmac alg key (be64 ctr)

/-- The padding of both hashes: the message, 0x80, the fewest zeros that fill whole blocks, and the bit length as eight
big-endian bytes (43_hash_hmac.md rule R161). -/
def Obligations.PaddingFillsWholeBlocks : Prop :=
  ∀ message : List Byte, message.length < 2 ^ 61 → ∃ z,
    pad message = message ++ [0x80] ++ List.replicate z 0 ++ be64 (BitVec.ofNat 64 (8 * message.length)) ∧
    (pad message).length % 64 = 0 ∧ z < 64 ∧
    bigEndian ((pad message).drop ((pad message).length - 8)) = 8 * message.length

/-- HMAC cannot tell a key from the same key with zero bytes after it, within one block (43_hash_hmac.md rule R171). -/
def Obligations.HmacIgnoresTrailingZeros : Prop :=
  ∀ (alg : Alg) (key message : List Byte) (n : Nat), key.length + n ≤ 64 →
    hmac alg (key ++ List.replicate n 0) message = hmac alg key message

/-! ## Base32 -/

/-- Decoding an encoded byte sequence gives it back, for every byte sequence; so does decoding it with its letters
lower-cased, or with its `=` removed. The converse fails: three texts that are no encoding decode to "foo" (case,
padding, fill bits). 42_base32.md rule R144, which the spec marks as derived from rules R141 and R142. -/
def Obligations.Base32RoundTrip : Prop :=
  (∀ bytes : List Byte,
    b32Decode (b32Encode bytes) = .ok bytes ∧
    b32Decode ((b32Encode bytes).map lowerCase) = .ok bytes ∧
    b32Decode (alphabetChars (b32Encode bytes)) = .ok bytes) ∧
  (∀ t ∈ [[0x6D, 0x7A, 0x78, 0x77, 0x36, 0x3D, 0x3D, 0x3D], [0x4D, 0x5A, 0x58, 0x57, 0x36],
      [0x4D, 0x5A, 0x58, 0x57, 0x37, 0x3D, 0x3D, 0x3D]],
    b32Decode t = .ok [0x66, 0x6F, 0x6F] ∧ b32Encode [0x66, 0x6F, 0x6F] ≠ t)

/-- `B32E`: `ceil(8n/5)` alphabet characters, each the next five bits of the bytes with zero fill, then `=` up to a
multiple of 8 (42_base32.md rules R140 and R141). -/
def Obligations.Base32EncodeGivesFiveBitGroups : Prop :=
  ∀ (bytes : List Byte) (n m : Nat), n = bytes.length → m = (8 * n + 4) / 5 →
    (b32Encode bytes).length = 8 * ((n + 4) / 5) ∧
    (∀ i, i < m →
      let v := bigEndian bytes * 2 ^ (5 * m - 8 * n) / 32 ^ (m - 1 - i) % 32
      byteAt (b32Encode bytes) i = if v < 26 then 0x41 + v else 0x32 + (v - 26)) ∧
    (∀ i, m ≤ i → i < 8 * ((n + 4) / 5) → byteAt (b32Encode bytes) i = 0x3D)

/-- `B32D`: `E_FORMAT` exactly for a byte outside the alphabet or a character count that no whole number of bytes gives;
otherwise `floor(5m/8)` bytes, the leading bits of the characters' values (42_base32.md rule R142). -/
def Obligations.Base32DecodeGivesBytes : Prop :=
  ∀ t : List Byte,
    (badText t → b32Decode t = .error .format) ∧
    (¬ badText t → ∃ r, b32Decode t = .ok r ∧ r.length = 5 * (alphabetChars t).length / 8 ∧
      bigEndian r = textNumber t / 2 ^ (5 * (alphabetChars t).length - 8 * r.length))

/-- `B32ENC` (the word 0x00000002) with the codec: a key length above 64 gives `E_KEYLEN` and nothing is written; else
the text buffer holds the Base32 text of the secret and 0x00 after it, `TXTLEN` its length, at most 104, and nothing
else changes but the flags of the completion (42_base32.md rule R146). -/
def Obligations.B32encWritesText : Prop :=
  ∀ s : State, s.hasB32 = true → decodeCommand s.hasB32 0x00000002 = .b32enc ∧
    (64 < s.eng.keylen.toNat → RunsTo (exec .b32enc s) (errorState s s.eng.status.rvalid 4)) ∧
    (s.eng.keylen.toNat ≤ 64 → ∃ t, exec .b32enc s = .next t ∧
      (∀ i : Fin 104, t.eng.txt[i].toNat = byteAt (b32Encode (s.eng.key.toList.take s.eng.keylen.toNat)) i.val) ∧
      t.eng.txtlen.toNat = (b32Encode (s.eng.key.toList.take s.eng.keylen.toNat)).length ∧
      t.eng.txtlen.toNat ≤ 104 ∧
      t = { s with rsp := t.rsp, eng := { s.eng with
        txt := t.eng.txt, txtlen := t.eng.txtlen
        status := completedStatus s.eng.status s.eng.status.rvalid 0 } })

/-- `B32DEC` (the word 0x00000003) with the codec checks in this order: `txtlen > 104` gives `E_TXTLEN`, malformed text
gives `E_FORMAT`, more than 64 decoded bytes gives `E_OVERFLOW`, and on any of them nothing is written; else the key
buffer holds the decoded bytes and 0x00 after them, `KEYLEN` their count, and nothing else changes but the flags of the
completion (42_base32.md rule R147). -/
def Obligations.B32decWritesKey : Prop :=
  ∀ (s : State) (t : List Byte), s.hasB32 = true → t = s.eng.txt.toList.take s.eng.txtlen.toNat →
    decodeCommand s.hasB32 0x00000003 = .b32dec ∧
    (104 < s.eng.txtlen.toNat → RunsTo (exec .b32dec s) (errorState s s.eng.status.rvalid 5)) ∧
    (s.eng.txtlen.toNat ≤ 104 → badText t → RunsTo (exec .b32dec s) (errorState s s.eng.status.rvalid 2)) ∧
    (s.eng.txtlen.toNat ≤ 104 → ¬ badText t → 64 < 5 * (alphabetChars t).length / 8 →
      RunsTo (exec .b32dec s) (errorState s s.eng.status.rvalid 6)) ∧
    (s.eng.txtlen.toNat ≤ 104 → ¬ badText t → 5 * (alphabetChars t).length / 8 ≤ 64 →
      ∃ (r : List Byte) (u : State), b32Decode t = .ok r ∧ exec .b32dec s = .next u ∧
        (∀ i : Fin 64, u.eng.key[i].toNat = byteAt r i.val) ∧ u.eng.keylen.toNat = r.length ∧
        u = { s with rsp := u.rsp, eng := { s.eng with
          key := u.eng.key, keylen := u.eng.keylen
          status := completedStatus s.eng.status s.eng.status.rvalid 0 } })

/-- `E_OVERFLOW` can occur only when `txtlen = 104` and no character is `=` (42_base32.md rule R147). -/
def Obligations.OverflowNeedsFullText : Prop :=
  ∀ s t : State, exec .b32dec s = .next t → t.eng.status.errcode = 6 →
    s.eng.txtlen.toNat = 104 ∧ ∀ c ∈ s.eng.txt.toList, c ≠ 0x3D

/-- On the engine: `B32ENC` then `B32DEC` succeed and leave the secret as it was (42_base32.md rules R146 and R147; rule
R144, which the spec marks as derived). -/
def Obligations.EngineBase32RoundTrip : Prop :=
  ∀ s : State, s.hasB32 = true → s.eng.keylen.toNat ≤ 64 → ∃ t u,
    exec .b32enc s = .next t ∧ exec .b32dec t = .next u ∧
    t.eng.status.errcode = 0 ∧ u.eng.status.errcode = 0 ∧
    u.eng.keylen = s.eng.keylen ∧ secret u.eng = secret s.eng

/-! ## Invariants -/

/-- The invariants of 10_state.md rule R37, which the spec marks as derived, hold at reset. So does `CodecAbsent`, with
the codec and without it: that clause is the model's own, for the parameter is a field of State (log entry 1) and the
absent text buffer a field that stays at zero (log entry 7). -/
def Obligations.InvariantHoldsAtReset : Prop :=
  Inv State.reset.eng ∧ ∀ hasB32 : Bool, CodecAbsent { State.reset with hasB32 := hasB32 }

/-- Every step keeps the invariants of 10_state.md rule R37, which the spec marks as derived from rules R120, R121 and
R190: `BUSY` implies `DONE = 0` and `ERRCODE = 0`, the top bit of
`TRUNC` is 0, `CODE` is below 10^8, `ERRCODE` is legal, and valid results belong together. -/
def Obligations.StepKeepsInvariant : Prop :=
  ∀ s t : State, Inv s.eng → step s = .next t → Inv t.eng

/-- Without the codec every step leaves the absent text buffer at zero, and no step adds or removes the codec
(10_state.md rules R32 and R38); the fields of an absent buffer are the model's (log entry 7). -/
def Obligations.StepKeepsCodecParameter : Prop :=
  ∀ s t : State, step s = .next t → t.hasB32 = s.hasB32 ∧ (CodecAbsent s → CodecAbsent t)

/-- `BUSY` rises only by the accept of a command and falls only by its completion or a reset (10_state.md rule R25,
41_command_sequencer.md rule R128). -/
def Obligations.BusyChangesOnlyByAcceptAndCompletion : Prop :=
  ∀ s t : State, step s = .next t →
    (s.eng.status.busy = false → t.eng.status.busy = true →
      ∃ w, nextInstr s = some (.wr 0x00 w) ∧ t.eng.cmdLatch = w) ∧
    (s.eng.status.busy = true → t.eng.status.busy = false →
      resetNext s = true ∨ ∃ i, nextInstr s = some i ∧ isCommand i = true)

/-- `LOCKERR` rises only by a dropped write and falls only by a `STATUS` write or a reset (10_state.md rule R25). -/
def Obligations.LockErrChangesOnlyByDropAndClear : Prop :=
  ∀ s t : State, step s = .next t →
    (s.eng.status.lockerr = false → t.eng.status.lockerr = true →
      s.eng.status.busy = true ∧ ∃ idx v, nextInstr s = some (.wr idx v) ∧ lockableIndex s.hasB32 idx.toNat) ∧
    (s.eng.status.lockerr = true → t.eng.status.lockerr = false →
      resetNext s = true ∨ ∃ v, nextInstr s = some (.wr 0x01 v) ∧ v.getLsbD 3 = true)

/-- `RVALID` rises only by a successful `HOTP` and falls only by a failed `HOTP`, by `CLEAR` or by a reset
(10_state.md rule R25). -/
def Obligations.RvalidChangesOnlyByHotpAndClear : Prop :=
  ∀ s t : State, step s = .next t →
    (s.eng.status.rvalid = false → t.eng.status.rvalid = true →
      nextInstr s = some .hotp ∧ t.eng.status.errcode = 0) ∧
    (s.eng.status.rvalid = true → t.eng.status.rvalid = false →
      resetNext s = true ∨ nextInstr s = some .clear ∨ nextInstr s = some .hotp ∧ t.eng.status.errcode ≠ 0)

/-- The result registers change only by a successful `HOTP`, by `CLEAR` or by a reset: they do not track later writes
of the operands (44_hotp.md rule R197; 70_reset_and_hazards.md rule R246, which the spec marks as derived). -/
def Obligations.ResultsAreSnapshots : Prop :=
  ∀ s t : State, step s = .next t → resetNext s = false → nextInstr s ≠ some .clear →
    ¬ (nextInstr s = some .hotp ∧ t.eng.status.errcode = 0) →
    t.eng.digest = s.eng.digest ∧ t.eng.trunc = s.eng.trunc ∧ t.eng.code = s.eng.code ∧ t.eng.codeStr = s.eng.codeStr

/-- The counter changes only by a write of its halves, by `CLEAR` or by a reset: no other command changes it, and the
engine never increments it (10_state.md rule R23, 44_hotp.md rule R199). -/
def Obligations.CounterIsNeverManaged : Prop :=
  ∀ s t : State, step s = .next t → t.eng.ctr ≠ s.eng.ctr →
    resetNext s = true ∨ nextInstr s = some .clear ∨
      (∃ v, nextInstr s = some (.wr 0x06 v) ∧ t.eng.ctr.toNat = 2 ^ 32 * v.toNat + s.eng.ctr.toNat % 2 ^ 32) ∨
      (∃ v, nextInstr s = some (.wr 0x07 v) ∧ t.eng.ctr.toNat = 2 ^ 32 * (s.eng.ctr.toNat / 2 ^ 32) + v.toNat)

/-- The secret buffer changes only by a write of `KEYn`, by `B32DEC`, by `CLEAR` or by a reset: it stays after a command
(10_state.md rule R21; 70_reset_and_hazards.md rule R249, which the spec marks as derived). -/
def Obligations.SecretStaysUntilOverwritten : Prop :=
  ∀ s t : State, step s = .next t → t.eng.key ≠ s.eng.key →
    resetNext s = true ∨ nextInstr s = some .clear ∨ nextInstr s = some .b32dec ∨
      ∃ idx v, nextInstr s = some (.wr idx v) ∧ 0x20 ≤ idx.toNat ∧ idx.toNat ≤ 0x2F

/-- `irq = cfg.ie & status.done` over a step: it rises only by a completion with `IE` set or by a write of `CFG` that
sets `IE` while `DONE` is 1 (60_exceptions.md rule R216). -/
def Obligations.InterruptRisesByCompletionOrEnable : Prop :=
  ∀ s t : State, step s = .next t → irq s.eng = false → irq t.eng = true →
    (∃ i, nextInstr s = some i ∧ isCommand i = true ∧ s.eng.cfg.ie = true) ∨
    (∃ v, nextInstr s = some (.wr 0x02 v) ∧ v.getLsbD 8 = true ∧ s.eng.status.done = true)

/-- The latch is not readable by any transaction, and while the engine is idle no rule reads it: two idle engines that
differ in the latch alone answer the same and go on differing in the latch alone (10_state.md rule R26); a read answers
the same whatever the latch holds, busy or not. -/
def Obligations.IdleLatchIsInvisible : Prop :=
  (∀ (s : State) (w : Word), s.eng.status.busy = false → ∃ t u,
    step s = .next t ∧ step { s with eng := { s.eng with cmdLatch := w } } = .next u ∧
    u.rsp = t.rsp ∧ u.events = t.events ∧ u.hasB32 = t.hasB32 ∧ u.eng = { t.eng with cmdLatch := u.eng.cmdLatch } ∧
    irq u.eng = irq t.eng ∧ (t.eng.status.busy = true → u.eng.cmdLatch = t.eng.cmdLatch)) ∧
  (∀ (s : State) (w : Word) (idx : Index) (data : Word), ∃ t u, exec (.rd idx data) s = .next t ∧
    exec (.rd idx data) { s with eng := { s.eng with cmdLatch := w } } = .next u ∧ u.rsp = t.rsp)

/-! ## Encodings -/

/-- The decoder gives back every well-formed instruction from its encoding, whatever the implementation parameter
(30_encoding.md rules R81 to R84). That a read comes back with its `DATA`, which the engine ignores, is the model's
choice (log entry 12). -/
def Obligations.DecodeOfEncode : Prop :=
  ∀ (hasB32 : Bool) (i : Instr), i.wellFormed hasB32 = true → (encode i).decode hasB32 = i

/-- Every encoding of either format decodes to a well-formed instruction (30_encoding.md rules R81 and R84: decoding is
total), and encoding that instruction gives the word back, so no two words decode to one term of `Instr`. For two reads
that differ in `DATA` alone this last is the model's choice and no rule: the instruction keeps the field that the engine
ignores (log entry 12), and the two act alike. -/
def Obligations.EncodeOfDecode : Prop :=
  ∀ (hasB32 : Bool) (x : Encoded), (x.decode hasB32).wellFormed hasB32 = true ∧ encode (x.decode hasB32) = x

/-- The top byte of a transaction is `0x80*W + IDX` and its low four bytes are `DATA` (30_encoding.md rule R81, and rule
R90, which the spec marks as derived from it). -/
def Obligations.TransactionTopByte : Prop :=
  ∀ (write : Bool) (idx : Index) (data : Word),
    (encodeTransaction write idx data).toNat = (0x80 * bit write + idx.toNat) * 2 ^ 32 + data.toNat

/-- The worked encodings of 30_encoding.md rules R83 and R90 (the second derived, as the spec marks it) decode to what
they stand for. -/
def Obligations.WorkedEncodingsDecode : Prop :=
  decodeTransaction 0x8000000001 = .wr 0x00 0x00000001 ∧
  decodeTransaction 0x0100000000 = .rd 0x01 0x00000000 ∧
  decodeTransaction 0xA031323334 = .wr 0x20 0x31323334 ∧
  decodeTransaction 0x8700000001 = .wr 0x07 0x00000001 ∧
  decodeTransaction 0x0A00000000 = .rd 0x0A 0x00000000 ∧
  decodeTransaction 0xC047455A44 = .wr 0x40 0x47455A44 ∧
  decodeCommand true 0x00000001 = .hotp ∧ decodeCommand true 0x00000002 = .b32enc ∧
  decodeCommand true 0x00000003 = .b32dec ∧ decodeCommand true 0x00000004 = .clear ∧
  decodeCommand true 0x00000101 = .illegal 0x00000101

/-! ## The host's pseudo-instructions -/

/-- `LDKEY b` on an idle engine loads the secret: its expansion, run to the end, leaves `key[0..keylen) = b`, and key
words above the last one written keep what they held (30_encoding.md rule R88). -/
def Obligations.LdKeyLoadsSecret : Prop :=
  ∀ (s : State) (b : List Byte) (requests : List Transaction) (rest : List Event),
    ldKey b = some requests → s.eng.status.busy = false → s.events = requests.map .request ++ rest →
    ∃ t, stepN requests.length s = .next t ∧ secret t.eng = b ∧ t.eng.keylen.toNat = b.length ∧
      (∀ j : Fin 64, 4 * ((b.length + 3) / 4) ≤ j.val → t.eng.key[j] = s.eng.key[j]) ∧
      t.eng = { s.eng with key := t.eng.key, keylen := t.eng.keylen } ∧ t.events = rest

/-- `LDCTR c` on an idle engine loads the counter in two transactions and changes nothing else
(30_encoding.md rule R88, 10_state.md rule R23). -/
def Obligations.LdCtrLoadsCounter : Prop :=
  ∀ (s : State) (c : BitVec 64) (rest : List Event), s.eng.status.busy = false →
    s.events = (ldCtr c).map .request ++ rest →
    stepN 2 s = .next { s with eng := { s.eng with ctr := c }, events := rest, rsp := some 0 }

/-- A host access of `n` bytes at a byte offset reaches word `i` exactly when it is one whole word at `4*i`
(00_scope.md rule R11, 20_memory.md rule R60). -/
def Obligations.WordAccessReachesIndex : Prop :=
  ∀ (addr n : Nat) (i : Index), indexOfByteOffset addr n = some i ↔ n = 4 ∧ addr = 4 * i.toNat

/-- In one clock cycle the transaction comes before the completion, and a transaction presented with `rst = 1` is
discarded (20_memory.md rule R67, 70_reset_and_hazards.md rule R240). Whatever transaction is presented to a busy engine
in the cycle of its completion is run first, on the command still running: a read of `STATUS` sees `BUSY = 1`, a write
of 1 to `DONE` clears it, a write of a locked register is dropped; the completion of the same latched command follows
and sets `DONE`. A cycle without one of the two is the other alone, and one without both is no step. That a cycle stands
for these steps is the model's reading (log entry 15), and so is the schedule (log entry 2). -/
def Obligations.CycleOrdersTransactionFirst : Prop :=
  ∀ (p : PortIn) (s : State) (rest : List Event),
    (p.rst = true → ∀ completes, ∃ t, step { s with events := cycleEvents p completes ++ rest } = .next t ∧
      t.eng = Engine.reset ∧ t.events = rest) ∧
    (p.rst = false → p.reqValid = true → s.eng.status.busy = true → ∃ t u,
      step { s with events := cycleEvents p true ++ rest } = .next t ∧
      exec (if p.reqWrite then .wr p.reqAddr p.reqWdata else .rd p.reqAddr p.reqWdata)
        { s with events := .completion :: rest } = .next t ∧
      t.eng.status.busy = true ∧ t.eng.cmdLatch = s.eng.cmdLatch ∧ t.hasB32 = s.hasB32 ∧
      (p.reqWrite = false → p.reqAddr = 0x01 → ∃ v, t.rsp = some v ∧ v.getLsbD 0 = true) ∧
      (p.reqWrite = true → p.reqAddr = 0x01 → p.reqWdata.getLsbD 1 = true → t.eng.status.done = false) ∧
      (p.reqWrite = true → lockableIndex s.hasB32 p.reqAddr.toNat → t.eng.status.lockerr = true) ∧
      step t = .next u ∧ exec (decodeCommand s.hasB32 s.eng.cmdLatch) { t with events := rest } = .next u ∧
      u.eng.status.busy = false ∧ u.eng.status.done = true ∧ u.eng.status.lockerr = t.eng.status.lockerr ∧
      u.events = rest) ∧
    (p.rst = false → p.reqValid = true → step { s with events := cycleEvents p false ++ rest } =
      exec (if p.reqWrite then .wr p.reqAddr p.reqWdata else .rd p.reqAddr p.reqWdata) { s with events := rest }) ∧
    (p.rst = false → p.reqValid = false → s.eng.status.busy = true →
      step { s with events := cycleEvents p true ++ rest } =
        exec (decodeCommand s.hasB32 s.eng.cmdLatch) { s with events := rest }) ∧
    (p.rst = false → p.reqValid = false → cycleEvents p false = [])
end

