-- ==== Sys2Proof/Laws/Base32.lean ====
section
/-! SUPPORT. Bit strings and their values, groups of bits, and the two directions of the alphabet. -/

namespace Sys2Proof.Machine

/-- The value of a bit string, first bit most significant. -/
def bitsValue (bits : List Bool) : Nat := bits.foldl (fun n b => 2 * n + b.toNat) 0

theorem foldl_mul {α} (k : Nat) (f : α → Nat) (l : List α) : ∀ n, l.foldl (fun n b => k * n + f b) n = n * k ^ l.length + l.foldl (fun n b => k * n + f b) 0 := by
  induction l with
  | nil => intro n; simp
  | cons x xs ih => intro n; simp only [List.foldl_cons, List.length_cons]; rw [ih, ih (k * 0 + f x)]; ring

theorem bitsValue_append (a b : List Bool) : bitsValue (a ++ b) = bitsValue a * 2 ^ b.length + bitsValue b := by
  simp only [bitsValue, List.foldl_append]; rw [foldl_mul 2 Bool.toNat b]

theorem bitsValue_lt (a : List Bool) : bitsValue a < 2 ^ a.length := by
  induction a using List.reverseRecOn with
  | nil => simp [bitsValue]
  | append_singleton l b ih => rw [bitsValue_append]; cases b <;> simp [bitsValue, pow_succ] at ih ⊢ <;> omega

theorem ofBitsMSB_toNat (w) (l : List Bool) (h : l.length ≤ w) : (ofBitsMSB w l).toNat = bitsValue l := by
  have := bitsValue_lt l
  have h2 : 2 ^ l.length ≤ 2 ^ w := Nat.pow_le_pow_right (by omega) h
  simp only [ofBitsMSB, BitVec.toNat_ofNat]; exact Nat.mod_eq_of_lt (by unfold bitsValue at this; omega)

@[simp] theorem bitsMSB_length {w} (v : BitVec w) : (bitsMSB v).length = w := by simp [bitsMSB]

theorem bitsValue_inj : ∀ {a b : List Bool}, a.length = b.length → bitsValue a = bitsValue b → a = b := by
  intro a
  induction a using List.reverseRecOn with
  | nil => intro b h _; exact (List.length_eq_zero_iff.1 h.symm).symm
  | append_singleton l x ih =>
    intro b h h2
    rcases List.eq_nil_or_concat b with rfl | ⟨b', y, rfl⟩
    · simp at h
    · simp only [List.concat_eq_append] at h h2 ⊢
      rw [bitsValue_append, bitsValue_append] at h2
      simp at h
      have hx : x.toNat < 2 := Bool.toNat_lt x
      have hy := Bool.toNat_lt y
      have e1 : bitsValue [x] = x.toNat := by simp [bitsValue]
      have e2 : bitsValue [y] = y.toNat := by simp [bitsValue]
      rw [e1, e2] at h2; simp at h2
      have : bitsValue l = bitsValue b' := by omega
      have h3 : x.toNat = y.toNat := by omega
      rw [ih h this, (by cases x <;> cases y <;> simp at h3 ⊢ : x = y)]

theorem bitsValue_bitsMSB {w} (v : BitVec w) : bitsValue (bitsMSB v) = v.toNat := by
  induction w with
  | zero => simp [bitsMSB, bitsValue, BitVec.eq_nil v]
  | succ w ih =>
    have hs : bitsMSB v = bitsMSB (v.extractLsb' 1 w) ++ [v.getLsbD 0] := by
      simp only [bitsMSB]
      rw [List.ofFn_succ_last]
      congr 1
      · congr 1; funext i
        have := i.isLt
        simp only [BitVec.getMsbD_eq_getLsbD, BitVec.getLsbD_extractLsb', Fin.val_castSucc]
        have h1 : decide (i.val < w + 1) = true := by simp only [decide_eq_true_eq]; omega
        have h2 : decide (i.val < w) = true := by simp
        have h3 : decide (w - 1 - i.val < w) = true := by simp only [decide_eq_true_eq]; omega
        rw [h1, h2, h3]; simp; try (congr 1; omega)
      · simp [BitVec.getMsbD_eq_getLsbD]
    rw [hs, bitsValue_append, ih]
    simp only [BitVec.extractLsb'_toNat, Nat.shiftRight_eq_div_pow, List.length_singleton]
    have := v.isLt
    have e : bitsValue [v.getLsbD 0] = v.toNat % 2 := by
      simp only [bitsValue, List.foldl_cons, List.foldl_nil, BitVec.getLsbD, Nat.testBit_zero]
      rcases Nat.mod_two_eq_zero_or_one v.toNat with h | h <;> rw [h] <;> decide
    rw [e, Nat.mod_eq_of_lt (by rw [pow_succ] at this; omega)]; omega

theorem ofBitsMSB_bitsMSB {w} (v : BitVec w) : ofBitsMSB w (bitsMSB v) = v := by
  apply BitVec.eq_of_toNat_eq; rw [ofBitsMSB_toNat _ _ (by simp), bitsValue_bitsMSB]

theorem bitsMSB_ofBitsMSB (w) (g : List Bool) (h : g.length = w) : bitsMSB (ofBitsMSB w g) = g := by
  apply bitsValue_inj
  · simp [h]
  · rw [bitsValue_bitsMSB, ofBitsMSB_toNat _ _ (by omega)]

@[simp] theorem groups_length {α} (k n) (l : List α) : (groups k n l).length = n := by
  induction n generalizing l with
  | zero => rfl
  | succ n ih => simp [groups, ih]

theorem flatMap_groups (w n) (l : List Bool) (h : l.length = w * n) : ((groups w n l).map (ofBitsMSB w)).flatMap bitsMSB = l := by
  induction n generalizing l with
  | zero => simp at h; simp [groups, h]
  | succ n ih =>
    rw [Nat.mul_succ] at h
    simp only [groups, List.map_cons, List.flatMap_cons]
    rw [bitsMSB_ofBitsMSB _ _ (by simp; omega), ih _ (by simp; omega), List.take_append_drop]

theorem groups_flatMap {w} (vs : List (BitVec w)) (tail : List Bool) : (groups w vs.length (vs.flatMap bitsMSB ++ tail)).map (ofBitsMSB w) = vs := by
  induction vs with
  | nil => simp [groups]
  | cons v vs ih =>
    simp only [List.length_cons, groups, List.flatMap_cons, List.append_assoc, List.map_cons]
    rw [List.take_left' (by simp), List.drop_left' (by simp), ofBitsMSB_bitsMSB, ih]

theorem flatMap_bitsMSB_length {w} (vs : List (BitVec w)) : (vs.flatMap bitsMSB).length = w * vs.length := by
  induction vs with
  | nil => simp
  | cons v vs ih => simp only [List.flatMap_cons, List.length_append, bitsMSB_length, List.length_cons, ih, Nat.mul_succ]; omega

/-- The 5-bit values of an encoded text. -/
def encVals (bytes : List Byte) : List (BitVec 5) :=
  (groups 5 ((8 * bytes.length + 4) / 5) (bytes.flatMap bitsMSB ++ List.replicate (5 * ((8 * bytes.length + 4) / 5) - 8 * bytes.length) false)).map (ofBitsMSB 5)

theorem encVals_length (b) : (encVals b).length = (8 * b.length + 4) / 5 := by simp [encVals]

theorem b32Encode_eq (b : List Byte) : b32Encode b = (encVals b).map alpha ++ List.replicate (8 * ((b.length + 4) / 5) - (8 * b.length + 4) / 5) 0x3D := by
  simp [b32Encode, encVals, Function.comp_def]

theorem encVals_bits (b) : (encVals b).flatMap bitsMSB = b.flatMap bitsMSB ++ List.replicate (5 * ((8 * b.length + 4) / 5) - 8 * b.length) false := by
  rw [encVals, flatMap_groups]
  rw [List.length_append, flatMap_bitsMSB_length, List.length_replicate]; omega

theorem b32Char_alpha (v : BitVec 5) : b32Char (alpha v) = .value v := by revert v; decide +kernel

theorem alpha_ne (v : BitVec 5) : alpha v ≠ 0x3D := by revert v; decide +kernel

theorem b32Values_map (f : BitVec 5 → Byte) (hf : ∀ v, b32Char (f v) = .value v) (vs : List (BitVec 5)) (k : Nat) :
   b32Values (vs.map f ++ List.replicate k 0x3D) = .ok vs := by
  induction vs with
  | nil =>
    induction k with
    | zero => rfl
    | succ k ih => exact ih
  | cons v vs ih =>
    simp only [List.map_cons, List.cons_append, b32Values, hf]
    rw [ih]; rfl

theorem bitsValue_flatMap {w} (vs : List (BitVec w)) : bitsValue (vs.flatMap bitsMSB) = vs.foldl (fun n v => 2 ^ w * n + v.toNat) 0 := by
  induction vs using List.reverseRecOn with
  | nil => rfl
  | append_singleton vs v ih =>
    rw [List.flatMap_append, bitsValue_append, List.foldl_append, ih]
    simp [bitsValue_bitsMSB, Nat.mul_comm]

theorem bitsValue_take_drop (l : List Bool) (a k : Nat) (h : a + k ≤ l.length) : bitsValue ((l.drop a).take k) = bitsValue l / 2 ^ (l.length - a - k) % 2 ^ k := by
  have e : l = l.take a ++ ((l.drop a).take k ++ l.drop (a + k)) := by
    rw [← List.drop_drop, List.take_append_drop, List.take_append_drop]
  have hv : bitsValue l = bitsValue (l.take a) * 2 ^ (k + (l.length - a - k)) + (bitsValue ((l.drop a).take k) * 2 ^ (l.length - a - k) + bitsValue (l.drop (a+k))) := by
    conv_lhs => rw [e]
    rw [bitsValue_append, bitsValue_append]
    simp only [List.length_append, List.length_drop, List.length_take]
    rw [show min k (l.length - a) + (l.length - (a + k)) = k + (l.length - a - k) by omega, show l.length - (a + k) = l.length - a - k by omega]
  have l1 := bitsValue_lt (l.drop (a+k))
  have l2 := bitsValue_lt ((l.drop a).take k)
  have e3 : (l.drop (a+k)).length = l.length - a - k := by simp; omega
  have e4 : ((l.drop a).take k).length = k := by simp; omega
  rw [e3] at l1; rw [e4] at l2
  have : bitsValue l / 2 ^ (l.length - a - k) = bitsValue (l.take a) * 2 ^ k + bitsValue ((l.drop a).take k) := by
    rw [hv, pow_add]
    rw [show bitsValue (l.take a) * (2^k * 2 ^ (l.length - a - k)) + (bitsValue ((l.drop a).take k) * 2 ^ (l.length - a - k) + bitsValue (l.drop (a+k))) = bitsValue (l.drop (a+k)) + (bitsValue (l.take a) * 2 ^ k + bitsValue ((l.drop a).take k)) * 2 ^ (l.length - a - k) by ring]
    rw [Nat.add_mul_div_right _ _ (by positivity), Nat.div_eq_of_lt l1, Nat.zero_add]
  rw [this, Nat.add_comm, Nat.add_mul_mod_self_right, Nat.mod_eq_of_lt l2]

theorem groups_getElem {α} (k n) (l : List α) (i : Nat) (h : i < (groups k n l).length) : (groups k n l)[i] = (l.drop (k * i)).take k := by
  induction n generalizing l i with
  | zero => simp [groups] at h
  | succ n ih =>
    cases i with
    | zero => simp [groups]
    | succ i => simp only [groups, List.getElem_cons_succ]; rw [ih, List.drop_drop]; congr 2; rw [Nat.mul_succ]; omega

theorem bitsValue_zeros (k) : bitsValue (List.replicate k false) = 0 := by
  induction k with
  | zero => rfl
  | succ k ih => exact ih

theorem alpha_toNat (v : BitVec 5) : (alpha v).toNat = if v.toNat < 26 then 0x41 + v.toNat else 0x32 + (v.toNat - 26) := by
  revert v; decide +kernel

theorem b32Encode_length_le (b : List Byte) (h : b.length ≤ 64) : (b32Encode b).length ≤ 104 := by
  rw [b32Encode_eq]; simp [encVals_length]; omega

end Sys2Proof.Machine
end

