-- ==== Sys2Proof/Laws/Bytes.lean ====
section
/-! SUPPORT. Bytes, words and buffers: what a word of a buffer is, and what writing one changes. -/

namespace Sys2Proof.Machine

theorem wordBE_toNat (b0 b1 b2 b3 : Byte) :
    (wordBE b0 b1 b2 b3).toNat = 16777216 * b0.toNat + 65536 * b1.toNat + 256 * b2.toNat + b3.toNat := by
  have h0 := b0.isLt; have h1 := b1.isLt; have h2 := b2.isLt; have h3 := b3.isLt
  simp only [wordBE, BitVec.toNat_append]
  rw [← Nat.shiftLeft_add_eq_or_of_lt h3, ← Nat.shiftLeft_add_eq_or_of_lt h2, ← Nat.shiftLeft_add_eq_or_of_lt h1]
  simp only [Nat.shiftLeft_eq]
  omega

theorem extract_byte_toNat (w : Word) (n : Nat) : (w.extractLsb' n 8).toNat = w.toNat / 2 ^ n % 256 := by
  simp [BitVec.extractLsb'_toNat, Nat.shiftRight_eq_div_pow]

@[simp] theorem be32_length (w : Word) : (be32 w).length = 4 := rfl

@[simp] theorem be64_length (x : BitVec 64) : (be64 x).length = 8 := rfl

theorem wordBE_bytes (w : Word) :
    wordBE (w.extractLsb' 24 8) (w.extractLsb' 16 8) (w.extractLsb' 8 8) (w.extractLsb' 0 8) = w := by
  apply BitVec.eq_of_toNat_eq
  have := w.isLt
  rw [wordBE_toNat]; simp only [extract_byte_toNat]; omega

theorem wordsBE_be32 (w : Word) : wordsBE (be32 w) = [w] := by simp [be32, wordsBE, wordBE_bytes]

theorem be32_wordBE (b0 b1 b2 b3 : Byte) : be32 (wordBE b0 b1 b2 b3) = [b0, b1, b2, b3] := by
  have h0 := b0.isLt; have h1 := b1.isLt; have h2 := b2.isLt; have h3 := b3.isLt
  simp only [be32, List.cons.injEq, and_true]
  refine ⟨?_, ?_, ?_, ?_⟩ <;> apply BitVec.eq_of_toNat_eq <;> rw [extract_byte_toNat, wordBE_toNat] <;> omega

@[simp] theorem bufferOf_getElem (n : Nat) (bytes : List Byte) (i : Nat) (h : i < n) :
    (bufferOf n bytes)[i] = bytes.getD i 0 := by simp [bufferOf]

theorem getD_toList {α} {n : Nat} (v : Vector α n) (i : Nat) (d : α) :
    v.toList.getD i d = if h : i < n then v[i] else d := by
  by_cases h : i < n
  · simp [h]
  · simp [h]

theorem setWordAt_getElem {k : Nat} (buf : Vector Byte k) (n : Nat) (h : 4 * n + 3 < k) (v : Word) (j : Nat) (hj : j < k) :
    (setWordAt buf n h v)[j] =
      if j = 4 * n then v.extractLsb' 24 8 else if j = 4 * n + 1 then v.extractLsb' 16 8
      else if j = 4 * n + 2 then v.extractLsb' 8 8 else if j = 4 * n + 3 then v.extractLsb' 0 8 else buf[j] := by
  simp only [setWordAt, Vector.getElem_set]
  repeat' split
  all_goals first | rfl | omega

theorem wordAt_setWordAt_same {k : Nat} (buf : Vector Byte k) (n : Nat) (h : 4 * n + 3 < k) (v : Word) :
    wordAt (setWordAt buf n h v) n h = v := by
  simp [wordAt, setWordAt_getElem, wordBE_bytes]

theorem wordAt_setWordAt_other {k : Nat} (buf : Vector Byte k) (n m : Nat) (h : 4 * n + 3 < k) (h' : 4 * m + 3 < k)
    (hne : m ≠ n) (v : Word) : wordAt (setWordAt buf n h v) m h' = wordAt buf m h' := by
  have e : ∀ j (hj : j < k), j / 4 ≠ n → (setWordAt buf n h v)[j] = buf[j] := by
    intro j hj hne; rw [setWordAt_getElem]
    repeat' split
    all_goals first | rfl | omega
  simp only [wordAt]
  rw [e, e, e, e] <;> omega

theorem buffer_take (n : Nat) (l : List Byte) (h : l.length ≤ n) : (bufferOf n l).toList.take l.length = l := by
  apply List.ext_getElem
  · simp; omega
  · intro i h1 h2; simp [List.getElem_take, bufferOf, h2]

end Sys2Proof.Machine
end

