-- ==== Sys2Proof/Laws/Encoding.lean ====
section
/-! SUPPORT. The fields of an encoded transaction and of a command word. -/

namespace Sys2Proof.Machine

theorem encodeTransaction_write (w : Bool) (i : Index) (d : Word) : (encodeTransaction w i d).getLsbD 39 = w := by
  rw [encodeTransaction, BitVec.getLsbD_append, BitVec.getLsbD_append]; cases w <;> rfl

theorem encodeTransaction_index (w : Bool) (i : Index) (d : Word) : (encodeTransaction w i d).extractLsb' 32 7 = i := by
  apply BitVec.eq_of_getLsbD_eq
  intro k hk
  rw [BitVec.getLsbD_extractLsb', encodeTransaction, BitVec.getLsbD_append, BitVec.getLsbD_append]
  have : ¬ (32 + k < 32) := by omega
  simp [this, hk]

theorem encodeTransaction_data (w : Bool) (i : Index) (d : Word) : (encodeTransaction w i d).extractLsb' 0 32 = d := by
  apply BitVec.eq_of_getLsbD_eq
  intro k hk
  rw [BitVec.getLsbD_extractLsb', encodeTransaction, BitVec.getLsbD_append]
  simp [hk]

theorem word_toNat_eq_hi_lo (w : Word) : w.toNat = 256 * (w.extractLsb' 8 24).toNat + (w.extractLsb' 0 8).toNat := by
  have := w.isLt
  simp [Nat.shiftRight_eq_div_pow]; omega

theorem word_eq_iff (w : Word) (n : Nat) (h : n < 256) : w = BitVec.ofNat 32 n ↔ w.extractLsb' 8 24 = 0 ∧ w.extractLsb' 0 8 = BitVec.ofNat 8 n := by
  have := w.isLt
  have := word_toNat_eq_hi_lo w
  have h8 := (w.extractLsb' 0 8).isLt
  constructor
  · rintro rfl
    constructor <;> apply BitVec.eq_of_toNat_eq <;> simp [Nat.shiftRight_eq_div_pow] <;> omega
  · rintro ⟨a, b⟩
    apply BitVec.eq_of_toNat_eq
    rw [a, b] at this
    simp at this ⊢; omega

theorem decodeTransaction_wellFormed (b : Bool) (ht) : (decodeTransaction ht).wellFormed b = true := by
  simp only [decodeTransaction]; split <;> rfl

theorem decodeTransaction_wrReg (r v) : decodeTransaction (wrReg r v) = .wr (regIndex r) v := by
  simp only [wrReg, decodeTransaction, encodeTransaction_write, encodeTransaction_index, encodeTransaction_data]; rfl

end Sys2Proof.Machine
end

