-- ==== Sys2Proof/Laws/Hash.lean ====
section
/-! SUPPORT. Lengths and blocks of the hash functions, and the parts of the truncation. -/

namespace Sys2Proof.Machine

@[simp] theorem serialise1_length (h) : (serialise1 h).length = 20 := rfl

@[simp] theorem serialise256_length (h) : (serialise256 h).length = 32 := rfl

theorem hash_length (a m) : (hash a m).length = if a = .sha256 then 32 else 20 := by cases a <;> rfl

theorem hmac_length (a k m) : (hmac a k m).length = if a = .sha256 then 32 else 20 := hash_length _ _

theorem and_0F_toNat (a : Byte) : (a &&& 0x0F).toNat = a.toNat % 16 := by
  have : ∀ a : Fin 256, ((⟨a⟩ : Byte) &&& 0x0F).toNat = a.val % 16 := by decide +kernel
  exact this a.toFin

theorem and_7F_toNat (a : Byte) : (a &&& 0x7F).toNat = a.toNat % 128 := by
  have : ∀ a : Fin 256, ((⟨a⟩ : Byte) &&& 0x7F).toNat = a.val % 128 := by decide +kernel
  exact this a.toFin

theorem dynamicTrunc_lt (mac) : (dynamicTrunc mac).toNat < 2^31 := by
  simp only [dynamicTrunc, wordBE_toNat, and_7F_toNat]
  have h (x : Byte) := x.isLt
  have := h (mac.getD (truncOffset mac + 1) 0)
  have := h (mac.getD (truncOffset mac + 2) 0)
  have := h (mac.getD (truncOffset mac + 3) 0)
  omega

theorem reduceCode_toNat (p : Word) (d) : (reduceCode p d).toNat = p.toNat % 10^d := by
  simp only [reduceCode, BitVec.toNat_ofNat]
  have := p.isLt
  have := Nat.mod_le p.toNat (10^d)
  apply Nat.mod_eq_of_lt; omega

theorem decimalString_getD (v d i) : (decimalString v d).getD i 0 = if i < d then BitVec.ofNat 8 (0x30 + v / 10 ^ (d - 1 - i) % 10) else 0 := by
  simp only [decimalString]
  by_cases h : i < d <;> simp [h]

theorem hotp_digits {e e'} (h : hotpCommand e = .ok e') : 6 ≤ e.cfg.digits.toNat ∧ e.cfg.digits.toNat ≤ 8 := by
  simp only [hotpCommand] at h
  split at h
  · cases h
  · simp [Config.digitsMin, Config.digitsMax] at *; omega

theorem getLsbD_31_of_lt (w : Word) (h : w.toNat < 2^31) : w.getLsbD 31 = false := by
  rw [BitVec.getLsbD, Nat.testBit_lt_two_pow h]

theorem hotpCommand_digits {e : Engine} (h : e.cfg.digits.toNat < 6 ∨ 8 < e.cfg.digits.toNat) : hotpCommand e = .error .digits := by
  rw [hotpCommand, if_pos h]

theorem hotpCommand_keylen {e : Engine} (h : 6 ≤ e.cfg.digits.toNat) (h' : e.cfg.digits.toNat ≤ 8) (hk : 64 < e.keylen.toNat) : hotpCommand e = .error .keylen := by
  rw [hotpCommand, if_neg (by simp [Config.digitsMin, Config.digitsMax]; omega), if_pos hk]

theorem hotpCommand_ok {e : Engine} (h : 6 ≤ e.cfg.digits.toNat) (h' : e.cfg.digits.toNat ≤ 8) (hk : e.keylen.toNat ≤ 64) : hotpCommand e = .ok (hotpResults e) := by
  rw [hotpCommand, if_neg (by simp [Config.digitsMin, Config.digitsMax]; omega), if_neg (by simp [Config.keyMax]; omega)]

theorem keyBlock_length (k : List Byte) (h : k.length ≤ 64) : (keyBlock k).length = 64 := by simp [keyBlock]; omega

theorem paddedBlocks_two (a b : List Byte) (ha : a.length = 64) (hb : b.length ≤ 55) : paddedBlocks (a ++ b) = [a, b ++ [0x80] ++ List.replicate (55 - b.length) 0 ++ be64 (BitVec.ofNat 64 (8 * (64 + b.length)))] := by
  have hz : padZeros (a ++ b).length = 55 - b.length := by simp [padZeros, ha]; omega
  have hp : pad (a ++ b) = a ++ (b ++ [0x80] ++ List.replicate (55 - b.length) 0 ++ be64 (BitVec.ofNat 64 (8 * (64 + b.length)))) := by
    simp only [pad, hz]; simp only [List.length_append, ha, List.append_assoc]
  have hl : (b ++ [0x80] ++ List.replicate (55 - b.length) 0 ++ be64 (BitVec.ofNat 64 (8 * (64 + b.length)))).length = 64 := by simp; omega
  rw [paddedBlocks, hp, List.length_append, ha, hl]
  simp only [blocks]
  rw [List.take_left' ha, List.drop_left' ha, List.take_of_length_le (by rw [hl])]

end Sys2Proof.Machine
end

