-- ==== Sys2Proof/Laws/Operands.lean ====
section
/-! SUPPORT. The register map and the register fields. -/

namespace Sys2Proof.Machine

theorem forall_index {p : Index → Prop} (h : ∀ i : Fin 128, p ⟨i⟩) (idx : Index) : p idx := h idx.toFin

theorem regAt_regIndex (b : Bool) (r : Reg) (h : needsCodec r = true → b = true) : regAt b (regIndex r) = some r := by
  cases r with
  | txtlen => simp [needsCodec] at h; subst h; decide
  | txt n => simp [needsCodec] at h; subst h; revert n; decide
  | digest n => revert n; cases b <;> decide
  | key n => revert n; cases b <;> decide
  | cmd | status | cfg | id | keylen | ctrHi | ctrLo | code | trunc | codeStr0 | codeStr1 => cases b <;> decide

theorem regIndex_of_regAt {b : Bool} {idx : Index} {r : Reg} (h : regAt b idx = some r) :
    regIndex r = idx ∧ (needsCodec r = true → b = true) := by
  have key : ∀ i : Index, ∀ q ∈ regAt b i, regIndex q = i ∧ (needsCodec q = true → b = true) := by
    apply forall_index; cases b <;> decide +kernel
  exact key idx r h

theorem ctrHi_toNat (c : BitVec 64) : (ctrHiWord c).toNat = c.toNat / 2^32 := by
  have := c.isLt
  simp [ctrHiWord, Nat.shiftRight_eq_div_pow]; omega

theorem ctrLo_toNat (c : BitVec 64) : (ctrLoWord c).toNat = c.toNat % 2^32 := by
  simp [ctrLoWord]

theorem extract_low (v : Word) (n : Nat) : v.extractLsb' 0 n = BitVec.ofNat n v.toNat := by
  apply BitVec.eq_of_toNat_eq; simp

theorem setCtrHi_eq (c : BitVec 64) (v : Word) : setCtrHi c v = BitVec.ofNat 64 (2 ^ 32 * v.toNat + c.toNat % 2 ^ 32) := by
  apply BitVec.eq_of_toNat_eq
  have := v.isLt; have := c.isLt
  rw [setCtrHi, BitVec.toNat_append, ← Nat.shiftLeft_add_eq_or_of_lt (BitVec.isLt _), ctrLo_toNat, Nat.shiftLeft_eq, BitVec.toNat_ofNat]
  omega

theorem setCtrLo_eq (c : BitVec 64) (v : Word) : setCtrLo c v = BitVec.ofNat 64 (2 ^ 32 * (c.toNat / 2 ^ 32) + v.toNat) := by
  apply BitVec.eq_of_toNat_eq
  have := v.isLt; have := c.isLt
  rw [setCtrLo, BitVec.toNat_append, ← Nat.shiftLeft_add_eq_or_of_lt (BitVec.isLt _), ctrHi_toNat, Nat.shiftLeft_eq, BitVec.toNat_ofNat]
  omega

theorem ctrLo_setHi (c v) : ctrLoWord (setCtrHi c v) = ctrLoWord c := by
  apply BitVec.eq_of_toNat_eq
  have := v.isLt; have := c.isLt
  rw [setCtrHi_eq, ctrLo_toNat, ctrLo_toNat, BitVec.toNat_ofNat]; omega

theorem ctrHi_setHi (c v) : ctrHiWord (setCtrHi c v) = v := by
  apply BitVec.eq_of_toNat_eq
  have := v.isLt; have := c.isLt
  rw [setCtrHi_eq, ctrHi_toNat, BitVec.toNat_ofNat]; omega

theorem ctrLo_setLo (c v) : ctrLoWord (setCtrLo c v) = v := by
  apply BitVec.eq_of_toNat_eq
  have := v.isLt; have := c.isLt
  rw [setCtrLo_eq, ctrLo_toNat, BitVec.toNat_ofNat]; omega

theorem ctrHi_setLo (c v) : ctrHiWord (setCtrLo c v) = ctrHiWord c := by
  apply BitVec.eq_of_toNat_eq
  have := v.isLt; have := c.isLt
  rw [setCtrLo_eq, ctrHi_toNat, ctrHi_toNat, BitVec.toNat_ofNat]; omega

theorem algBit_ofBit (b : Bool) : algBit (algOfBit b) = b := by cases b <;> rfl

theorem cfgWord_ofWord (v : Word) : cfgWord (cfgOfWord v) = v &&& 0x11F := by
  apply BitVec.eq_of_getLsbD_eq
  intro i hi
  have : ∀ i : Fin 32, (cfgWord (cfgOfWord v)).getLsbD i = (v &&& 0x11F).getLsbD i := by
    intro i
    simp only [cfgWord, cfgOfWord, algBit_ofBit, BitVec.getLsbD_append, BitVec.getLsbD_and]
    fin_cases i <;> simp
  exact this ⟨i, hi⟩

theorem extract_setWidth_eq_and (v : Word) (n : Nat) (hn : n ≤ 32): (v.extractLsb' 0 n).setWidth 32 = v &&& BitVec.ofNat 32 (2^n-1) := by
  apply BitVec.eq_of_toNat_eq
  have h : 2^n ≤ 2^32 := Nat.pow_le_pow_right (by omega) hn
  have h2 : 0 < 2^n := Nat.pow_pos (by omega)
  simp only [BitVec.toNat_setWidth, BitVec.extractLsb'_toNat, Nat.shiftRight_zero, BitVec.toNat_and, BitVec.toNat_ofNat]
  rw [Nat.mod_eq_of_lt (a := 2^n-1) (by omega), Nat.and_two_pow_sub_one_eq_mod]
  apply Nat.mod_eq_of_lt
  have := Nat.mod_lt v.toNat h2; omega

theorem secret_length (e : Engine) (h : e.keylen.toNat ≤ 64) : (secret e).length = e.keylen.toNat := by simp [secret]; omega

end Sys2Proof.Machine
end

