-- ==== Sys2Proof/Laws/Numbers.lean ====
section
/-! SUPPORT. The model's words in the numbers the statements use. -/

open Sys2Proof.Spec

namespace Sys2Proof.Machine

theorem wordAt_toNat {k : Nat} (buf : Vector Byte k) (n : Nat) (h : 4 * n + 3 < k) :
   (wordAt buf n h).toNat = word4 buf.toList n := by
  rw [wordAt, wordBE_toNat, word4]
  simp only [byteAt, getD_toList]
  rw [dif_pos (by omega), dif_pos (by omega), dif_pos (by omega), dif_pos (by omega)]

theorem status_toNat (s : Status) : (statusWord s).toNat = statusValue s := by
  obtain ⟨a, b, c, d, e⟩ := s
  revert e
  have : ∀ e : Fin 16, (statusWord ⟨a, b, c, d, ⟨e⟩⟩).toNat = statusValue ⟨a, b, c, d, ⟨e⟩⟩ := by
    cases a <;> cases b <;> cases c <;> cases d <;> decide +kernel
  intro e; exact this e.toFin

theorem cfg_toNat (c : Cfg) : (cfgWord c).toNat = c.digits.toNat + 16 * bit (c.alg == .sha256) + 256 * bit c.ie := by
  obtain ⟨d, a, i⟩ := c
  have : ∀ d : Fin 16, (cfgWord ⟨⟨d⟩, a, i⟩).toNat = d.val + 16 * bit (a == .sha256) + 256 * bit i := by
    cases a <;> cases i <;> decide +kernel
  exact this d.toFin

theorem setWordAt_eq_putWord {k : Nat} (buf : Vector Byte k) (n : Nat) (h : 4 * n + 3 < k) (v : Word) :
    setWordAt buf n h v = putWord buf n v := by
  apply Vector.ext; intro j hj
  rw [setWordAt_getElem]; simp only [putWord, Vector.getElem_ofFn]
  have hb : ∀ q, q < 4 → v.extractLsb' (8 * (3 - q)) 8 = byteOf v q := by
    intro q hq; apply BitVec.eq_of_toNat_eq; rw [extract_byte_toNat]
    simp only [byteOf, BitVec.toNat_ofNat]
    rw [Nat.pow_mul]
  split
  · rename_i e; subst e; rw [if_pos (by omega), show 4 * n % 4 = 0 by omega, ← hb 0 (by omega)]
  split
  · rename_i e; subst e; rw [if_pos (by omega), show (4 * n + 1) % 4 = 1 by omega, ← hb 1 (by omega)]
  split
  · rename_i e; subst e; rw [if_pos (by omega), show (4 * n + 2) % 4 = 2 by omega, ← hb 2 (by omega)]
  split
  · rename_i e; subst e; rw [if_pos (by omega), show (4 * n + 3) % 4 = 3 by omega, ← hb 3 (by omega)]
  · rw [if_neg (by omega)]; rfl

theorem bigEndian_append (a b : List Byte) : bigEndian (a ++ b) = bigEndian a * 256 ^ b.length + bigEndian b := by
  have key : ∀ (b : List Byte) (n : Nat), b.foldl (fun n b => 256 * n + b.toNat) n = n * 256 ^ b.length + b.foldl (fun n b => 256 * n + b.toNat) 0 := by
    intro b; induction b with
    | nil => intro n; simp
    | cons x xs ih => intro n; simp only [List.foldl_cons, List.length_cons]; rw [ih, ih (256 * 0 + x.toNat)]; ring
  simp only [bigEndian, List.foldl_append]; rw [key]

theorem be64_value (x : BitVec 64) : bigEndian (be64 x) = x.toNat := by
  have := x.isLt
  simp [be64, bigEndian, BitVec.extractLsb'_toNat, Nat.shiftRight_eq_div_pow]; omega

end Sys2Proof.Machine
end

