-- ==== Sys2Proof/Laws/Ops.lean ====
section
/-! SUPPORT. The shared operations: what a write can come to, and what a completion leaves. -/

namespace Sys2Proof.Machine

/-- What an index lookup of a write can come to: nothing, a drop, or the write of the one register at that index. -/
theorem writeIndex_cases (hasB32 : Bool) (e : Engine) (idx : Index) (v : Word) :
    (regAt hasB32 idx = none ∧ writeIndex hasB32 e idx v = e) ∨
    (∃ r, regAt hasB32 idx = some r ∧ lockable r = true ∧ e.status.busy = true ∧
      writeIndex hasB32 e idx v = { e with status := statusLockErr e.status }) ∨
    (∃ r, regAt hasB32 idx = some r ∧ (lockable r = true → e.status.busy = false) ∧
      writeIndex hasB32 e idx v = writeReg e r v) := by
  rw [writeIndex]
  cases hr : regAt hasB32 idx with
  | none => exact Or.inl ⟨rfl, rfl⟩
  | some r =>
    right
    by_cases h : (lockable r && e.status.busy) = true
    · left
      simp only [h, if_true]
      rw [Bool.and_eq_true] at h
      exact ⟨r, rfl, h.1, h.2, trivial⟩
    · right
      simp only [h]
      exact ⟨r, rfl, fun hl => by simpa [hl] using h, by simp⟩

theorem readReg_writeReg_other (b e r r' v) (hl : lockable r = true) (h0 : r ≠ .cmd) (hne : r' ≠ r) :
   readReg b (writeReg e r v) r' = readReg b e r' := by
  cases r with
  | cmd => exact absurd rfl h0
  | status | id | code | trunc | codeStr0 | codeStr1 | digest => simp [lockable] at hl
  | key n =>
    cases r' with
    | key m =>
      unfold writeReg readReg; exact wordAt_setWordAt_other _ _ _ (by omega) (by omega) (fun h => hne (by rw [Fin.ext h])) _
    | _ => rfl
  | txt n =>
    cases r' with
    | txt m =>
      unfold writeReg readReg; exact wordAt_setWordAt_other _ _ _ (by omega) (by omega) (fun h => hne (by rw [Fin.ext h])) _
    | _ => rfl
  | cfg | keylen | txtlen | ctrHi | ctrLo => cases r' <;> first | exact absurd rfl hne | simp only [readReg, writeReg, ctrLo_setHi, ctrHi_setLo]

theorem busy_writeReg (e r v) (h0 : r ≠ .cmd) : (writeReg e r v).status.busy = e.status.busy := by
  cases r <;> first | rfl | exact absurd rfl h0

theorem completed_ok {k c e e'} (h : c e = .ok e') : completed k c e = completeOk e' := by simp [completed, h]

theorem completed_error {k c e x} (h : c e = .error x) : completed k c e = completeErr k e x := by simp [completed, h]

theorem errCode_le (c : CmdError) : (errCode c).toNat ≤ 6 := by cases c <;> decide

theorem errCode_ne (c : CmdError) : (errCode c) ≠ 0 := by cases c <;> decide

theorem complete_of_ok {k c} {s : State} {e'} (h : c s.eng = .ok e') : complete k c s = .next { s with eng := completeOk e', rsp := none } := by
  simp only [complete, completed_ok h]

theorem completed_busy (k c e) : (completed k c e).status.busy = false := by
  simp only [completed]; split <;> rfl

theorem completed_done (k c e) : (completed k c e).status.done = true := by
  simp only [completed]; split <;> rfl

end Sys2Proof.Machine
end

