-- ==== Sys2Proof/Laws/PerInstr.lean ====
section
/-! SUPPORT. A statement for every instruction as syntax: which of the two formats of 30_encoding.md rule R80 encodes it. -/

namespace Sys2Proof.Laws.EncodeFormat

/-- A host transaction is encoded in format `HT`, a command in format `CW`. -/
def Statement (i : Instr) : Prop :=
  (∃ ht, encode i = .ht ht) ∧ Machine.isCommand i = false ∨ (∃ cw, encode i = .cw cw) ∧ Machine.isCommand i = true

theorem rd (idx : Index) (data : Word) : Statement (.rd idx data) := Or.inl ⟨⟨_, rfl⟩, rfl⟩

theorem wr (idx : Index) (data : Word) : Statement (.wr idx data) := Or.inl ⟨⟨_, rfl⟩, rfl⟩

theorem hotp : Statement .hotp := Or.inr ⟨⟨_, rfl⟩, rfl⟩

theorem b32enc : Statement .b32enc := Or.inr ⟨⟨_, rfl⟩, rfl⟩

theorem b32dec : Statement .b32dec := Or.inr ⟨⟨_, rfl⟩, rfl⟩

theorem clear : Statement .clear := Or.inr ⟨⟨_, rfl⟩, rfl⟩

theorem illegal (word : Word) : Statement (.illegal word) := Or.inr ⟨⟨_, rfl⟩, rfl⟩

end Sys2Proof.Laws.EncodeFormat
end

