-- ==== Sys2Proof/Laws/State.lean ====
section
/-! SUPPORT. What each update of the engine leaves in each field, so that no proof unfolds a record update. -/

namespace Sys2Proof.Machine

/-! statusW1C -/

@[simp] theorem statusW1C_busy (s : Status) (v : Word) : (statusW1C s v).busy = s.busy := rfl
@[simp] theorem statusW1C_done (s : Status) (v : Word) : (statusW1C s v).done = (s.done && !v.getLsbD 1) := rfl
@[simp] theorem statusW1C_rvalid (s : Status) (v : Word) : (statusW1C s v).rvalid = s.rvalid := rfl
@[simp] theorem statusW1C_lockerr (s : Status) (v : Word) :
    (statusW1C s v).lockerr = (s.lockerr && !v.getLsbD 3) := rfl
@[simp] theorem statusW1C_errcode (s : Status) (v : Word) : (statusW1C s v).errcode = s.errcode := rfl

/-! statusLockErr -/

@[simp] theorem statusLockErr_busy (s : Status) : (statusLockErr s).busy = s.busy := rfl
@[simp] theorem statusLockErr_done (s : Status) : (statusLockErr s).done = s.done := rfl
@[simp] theorem statusLockErr_rvalid (s : Status) : (statusLockErr s).rvalid = s.rvalid := rfl
@[simp] theorem statusLockErr_lockerr (s : Status) : (statusLockErr s).lockerr = true := rfl
@[simp] theorem statusLockErr_errcode (s : Status) : (statusLockErr s).errcode = s.errcode := rfl

/-! statusAccept -/

@[simp] theorem statusAccept_busy (s : Status) : (statusAccept s).busy = true := rfl
@[simp] theorem statusAccept_done (s : Status) : (statusAccept s).done = false := rfl
@[simp] theorem statusAccept_rvalid (s : Status) : (statusAccept s).rvalid = s.rvalid := rfl
@[simp] theorem statusAccept_lockerr (s : Status) : (statusAccept s).lockerr = s.lockerr := rfl
@[simp] theorem statusAccept_errcode (s : Status) : (statusAccept s).errcode = 0 := rfl

/-! statusComplete -/

@[simp] theorem statusComplete_busy (s : Status) (code : BitVec 4) : (statusComplete s code).busy = false := rfl
@[simp] theorem statusComplete_done (s : Status) (code : BitVec 4) : (statusComplete s code).done = true := rfl
@[simp] theorem statusComplete_rvalid (s : Status) (code : BitVec 4) :
    (statusComplete s code).rvalid = s.rvalid := rfl
@[simp] theorem statusComplete_lockerr (s : Status) (code : BitVec 4) :
    (statusComplete s code).lockerr = s.lockerr := rfl
@[simp] theorem statusComplete_errcode (s : Status) (code : BitVec 4) : (statusComplete s code).errcode = code := rfl

/-! statusRvalid -/

@[simp] theorem statusRvalid_busy (s : Status) (valid : Bool) : (statusRvalid s valid).busy = s.busy := rfl
@[simp] theorem statusRvalid_done (s : Status) (valid : Bool) : (statusRvalid s valid).done = s.done := rfl
@[simp] theorem statusRvalid_rvalid (s : Status) (valid : Bool) : (statusRvalid s valid).rvalid = valid := rfl
@[simp] theorem statusRvalid_lockerr (s : Status) (valid : Bool) : (statusRvalid s valid).lockerr = s.lockerr := rfl
@[simp] theorem statusRvalid_errcode (s : Status) (valid : Bool) : (statusRvalid s valid).errcode = s.errcode := rfl

/-! accept -/

@[simp] theorem accept_key (e : Engine) (w : Word) : (accept e w).key = e.key := rfl
@[simp] theorem accept_keylen (e : Engine) (w : Word) : (accept e w).keylen = e.keylen := rfl
@[simp] theorem accept_ctr (e : Engine) (w : Word) : (accept e w).ctr = e.ctr := rfl
@[simp] theorem accept_cfg (e : Engine) (w : Word) : (accept e w).cfg = e.cfg := rfl
@[simp] theorem accept_status (e : Engine) (w : Word) : (accept e w).status = statusAccept e.status := rfl
@[simp] theorem accept_digest (e : Engine) (w : Word) : (accept e w).digest = e.digest := rfl
@[simp] theorem accept_trunc (e : Engine) (w : Word) : (accept e w).trunc = e.trunc := rfl
@[simp] theorem accept_code (e : Engine) (w : Word) : (accept e w).code = e.code := rfl
@[simp] theorem accept_codeStr (e : Engine) (w : Word) : (accept e w).codeStr = e.codeStr := rfl
@[simp] theorem accept_txt (e : Engine) (w : Word) : (accept e w).txt = e.txt := rfl
@[simp] theorem accept_txtlen (e : Engine) (w : Word) : (accept e w).txtlen = e.txtlen := rfl
@[simp] theorem accept_cmdLatch (e : Engine) (w : Word) : (accept e w).cmdLatch = w := rfl

/-! completeOk -/

@[simp] theorem completeOk_key (e : Engine) : (completeOk e).key = e.key := rfl
@[simp] theorem completeOk_keylen (e : Engine) : (completeOk e).keylen = e.keylen := rfl
@[simp] theorem completeOk_ctr (e : Engine) : (completeOk e).ctr = e.ctr := rfl
@[simp] theorem completeOk_cfg (e : Engine) : (completeOk e).cfg = e.cfg := rfl
@[simp] theorem completeOk_status (e : Engine) : (completeOk e).status = statusComplete e.status 0 := rfl
@[simp] theorem completeOk_digest (e : Engine) : (completeOk e).digest = e.digest := rfl
@[simp] theorem completeOk_trunc (e : Engine) : (completeOk e).trunc = e.trunc := rfl
@[simp] theorem completeOk_code (e : Engine) : (completeOk e).code = e.code := rfl
@[simp] theorem completeOk_codeStr (e : Engine) : (completeOk e).codeStr = e.codeStr := rfl
@[simp] theorem completeOk_txt (e : Engine) : (completeOk e).txt = e.txt := rfl
@[simp] theorem completeOk_txtlen (e : Engine) : (completeOk e).txtlen = e.txtlen := rfl
@[simp] theorem completeOk_cmdLatch (e : Engine) : (completeOk e).cmdLatch = e.cmdLatch := rfl

/-! completeErr -/

@[simp] theorem completeErr_key (keepsRvalid : Bool) (e : Engine) (c : CmdError) :
    (completeErr keepsRvalid e c).key = e.key := rfl
@[simp] theorem completeErr_keylen (keepsRvalid : Bool) (e : Engine) (c : CmdError) :
    (completeErr keepsRvalid e c).keylen = e.keylen := rfl
@[simp] theorem completeErr_ctr (keepsRvalid : Bool) (e : Engine) (c : CmdError) :
    (completeErr keepsRvalid e c).ctr = e.ctr := rfl
@[simp] theorem completeErr_cfg (keepsRvalid : Bool) (e : Engine) (c : CmdError) :
    (completeErr keepsRvalid e c).cfg = e.cfg := rfl
@[simp] theorem completeErr_status (keepsRvalid : Bool) (e : Engine) (c : CmdError) :
    (completeErr keepsRvalid e c).status = statusComplete (statusRvalid e.status (keepsRvalid && e.status.rvalid)) (errCode c) := rfl
@[simp] theorem completeErr_digest (keepsRvalid : Bool) (e : Engine) (c : CmdError) :
    (completeErr keepsRvalid e c).digest = e.digest := rfl
@[simp] theorem completeErr_trunc (keepsRvalid : Bool) (e : Engine) (c : CmdError) :
    (completeErr keepsRvalid e c).trunc = e.trunc := rfl
@[simp] theorem completeErr_code (keepsRvalid : Bool) (e : Engine) (c : CmdError) :
    (completeErr keepsRvalid e c).code = e.code := rfl
@[simp] theorem completeErr_codeStr (keepsRvalid : Bool) (e : Engine) (c : CmdError) :
    (completeErr keepsRvalid e c).codeStr = e.codeStr := rfl
@[simp] theorem completeErr_txt (keepsRvalid : Bool) (e : Engine) (c : CmdError) :
    (completeErr keepsRvalid e c).txt = e.txt := rfl
@[simp] theorem completeErr_txtlen (keepsRvalid : Bool) (e : Engine) (c : CmdError) :
    (completeErr keepsRvalid e c).txtlen = e.txtlen := rfl
@[simp] theorem completeErr_cmdLatch (keepsRvalid : Bool) (e : Engine) (c : CmdError) :
    (completeErr keepsRvalid e c).cmdLatch = e.cmdLatch := rfl

/-! hotpResults -/

@[simp] theorem hotpResults_key (e : Engine) : (hotpResults e).key = e.key := rfl
@[simp] theorem hotpResults_keylen (e : Engine) : (hotpResults e).keylen = e.keylen := rfl
@[simp] theorem hotpResults_ctr (e : Engine) : (hotpResults e).ctr = e.ctr := rfl
@[simp] theorem hotpResults_cfg (e : Engine) : (hotpResults e).cfg = e.cfg := rfl
@[simp] theorem hotpResults_status (e : Engine) : (hotpResults e).status = statusRvalid e.status true := rfl
@[simp] theorem hotpResults_digest (e : Engine) : (hotpResults e).digest = digestWords (hotpMac e) := rfl
@[simp] theorem hotpResults_trunc (e : Engine) : (hotpResults e).trunc = dynamicTrunc (hotpMac e) := rfl
@[simp] theorem hotpResults_code (e : Engine) :
    (hotpResults e).code = reduceCode (dynamicTrunc (hotpMac e)) e.cfg.digits.toNat := rfl
@[simp] theorem hotpResults_codeStr (e : Engine) :
    (hotpResults e).codeStr = bufferOf 8 (decimalString (hotpResults e).code.toNat e.cfg.digits.toNat) := rfl
@[simp] theorem hotpResults_txt (e : Engine) : (hotpResults e).txt = e.txt := rfl
@[simp] theorem hotpResults_txtlen (e : Engine) : (hotpResults e).txtlen = e.txtlen := rfl
@[simp] theorem hotpResults_cmdLatch (e : Engine) : (hotpResults e).cmdLatch = e.cmdLatch := rfl

/-! Completion keeps everything of a state but its engine and the answer. -/

theorem complete_next (keepsRvalid : Bool) (command : Engine → Except CmdError Engine) (s : State) :
    complete keepsRvalid command s = .next { s with eng := completed keepsRvalid command s.eng, rsp := none } := rfl

end Sys2Proof.Machine
end

