-- ==== Sys2Proof/Laws/Step.lean ====
section
/-! SUPPORT. What one step can do, said once. -/

namespace Sys2Proof.Machine

/-- The own rule of a command, as its meaning completes it (a host transaction has none). -/
def commandRule (hasB32 : Bool) : Instr → Engine → Except CmdError Engine
  | .hotp => hotpCommand
  | .b32enc => b32encCommand hasB32
  | .b32dec => b32decCommand hasB32
  | .clear => clearCommand hasB32
  | .illegal w => illegalCommand w
  | .rd _ _ => .ok
  | .wr _ _ => .ok

theorem exec_command (i : Instr) (s : State) (h : isCommand i = true) :
   exec i s = .next { s with eng := completed (i != .hotp) (commandRule s.hasB32 i) s.eng, rsp := none } := by
  cases i <;> first | rfl | simp [isCommand] at h

/-- What no command changes (41_command_sequencer.md rules R121 and R123). -/
structure KeepsControl (e e' : Engine) : Prop where
  cfg : e'.cfg = e.cfg
  lock : e'.status.lockerr = e.status.lockerr
  latch : e'.cmdLatch = e.cmdLatch

theorem commandRule_keeps (b i e e') (h : commandRule b i e = .ok e') : KeepsControl e e' := by
  cases i with
  | rd | wr => cases h; exact ⟨rfl, rfl, rfl⟩
  | hotp =>
    simp only [commandRule, hotpCommand] at h
    split at h
    · cases h
    split at h
    · cases h
    rw [← Except.ok.inj h]; exact ⟨rfl, rfl, rfl⟩
  | b32enc =>
    simp only [commandRule, b32encCommand] at h
    split at h
    · cases h
    split at h
    · cases h
    rw [← Except.ok.inj h]; exact ⟨rfl, rfl, rfl⟩
  | b32dec =>
    simp only [commandRule, b32decCommand] at h
    split at h
    · cases h
    split at h
    · cases h
    split at h
    · cases h
    split at h
    · cases h
    rw [← Except.ok.inj h]; exact ⟨rfl, rfl, rfl⟩
  | clear => cases h; exact ⟨rfl, rfl, rfl⟩
  | illegal => cases h

theorem decodeCommand_isCommand (hasB32 : Bool) (w : Word) : isCommand (decodeCommand hasB32 w) = true := by
  simp only [decodeCommand]
  repeat' split
  all_goals rfl

/-- A request that writes a mapped register of an idle engine. -/
theorem step_write_idle {s : State} {r v rest} (he : s.events = .request (wrReg r v) :: rest) (hb : s.eng.status.busy = false)
   (hc : needsCodec r = true → s.hasB32 = true) : step s = .next { s with eng := writeReg s.eng r v, events := rest, rsp := some 0 } := by
  simp only [step, agentStep, he, hostStep, decodeTransaction_wrReg, exec, execWr, writeIndex, regAt_regIndex _ _ hc, hb, Bool.and_false]
  simp

/-- The four turns a step can be. -/
theorem step_cases {s t : State} (h : step s = .next t) :
   (∃ ht rest, s.events = .request ht :: rest ∧ exec (decodeTransaction ht) { s with events := rest } = .next t) ∨
   (∃ rest, s.eng.status.busy = true ∧ resetNext s = false ∧ nextInstr s = some (decodeCommand s.hasB32 s.eng.cmdLatch) ∧ exec (decodeCommand s.hasB32 s.eng.cmdLatch) { s with events := rest } = .next t) ∨
   (t.eng = s.eng ∧ t.hasB32 = s.hasB32) ∨
   (resetNext s = true ∧ t.eng = Engine.reset ∧ t.hasB32 = s.hasB32) := by
  simp only [step, agentStep] at h
  cases he : s.events with
  | nil =>
    rw [he] at h
    simp only [engineStep] at h
    split at h
    · rename_i hb; exact Or.inr (Or.inl ⟨[], hb, by simp [resetNext, he], by simp [nextInstr, he, hb], by rw [← he]; exact h⟩)
    · cases h; exact Or.inr (Or.inr (Or.inl ⟨rfl, rfl⟩))
  | cons ev rest =>
    cases ev with
    | request ht => rw [he] at h; exact Or.inl ⟨ht, rest, rfl, h⟩
    | completion =>
      rw [he] at h
      simp only [engineStep] at h
      split at h
      · rename_i hb; exact Or.inr (Or.inl ⟨rest, hb, by simp [resetNext, he], by simp [nextInstr, he]; exact hb, h⟩)
      · cases h; exact Or.inr (Or.inr (Or.inl ⟨rfl, rfl⟩))
    | reset p => rw [he] at h; cases h; exact Or.inr (Or.inr (Or.inr ⟨by simp [resetNext, he], rfl, rfl⟩))

/-- Everything one step can be, by the instruction it runs: nothing, a dropped write, the write of one register, the
completion of one command, or a reset. -/
theorem step_next_cases {s t : State} (h : step s = .next t) :
   (t.hasB32 = s.hasB32) ∧ (
   (t.eng = s.eng) ∨
   (s.eng.status.busy = true ∧ (∃ idx v, nextInstr s = some (.wr idx v) ∧ ∃ r, regAt s.hasB32 idx = some r ∧ lockable r = true) ∧ t.eng = { s.eng with status := statusLockErr s.eng.status }) ∨
   (∃ r v, nextInstr s = some (.wr (regIndex r) v) ∧ (needsCodec r = true → s.hasB32 = true) ∧ (lockable r = true → s.eng.status.busy = false) ∧ t.eng = writeReg s.eng r v) ∨
   (∃ i, isCommand i = true ∧ nextInstr s = some i ∧ s.eng.status.busy = true ∧ t.eng = completed (i != .hotp) (commandRule s.hasB32 i) s.eng) ∨
   (resetNext s = true ∧ t.eng = Engine.reset)) := by
  rcases step_cases h with ⟨ht, rest, he, h⟩ | ⟨rest, hb, _, hn, h⟩ | ⟨h, h'⟩ | ⟨h, h', h''⟩
  · cases hd : decodeTransaction ht with
    | rd idx d => rw [hd] at h; cases h; exact ⟨rfl, Or.inl rfl⟩
    | wr idx d =>
      rw [hd] at h; cases h
      have hn : nextInstr s = some (.wr idx d) := by simp [nextInstr, he, hd]
      rcases writeIndex_cases s.hasB32 s.eng idx d with ⟨_, hw⟩ | ⟨r, hr, hl, hb, hw⟩ | ⟨r, hr, h2, hw⟩
      · exact ⟨rfl, Or.inl hw⟩
      · exact ⟨rfl, Or.inr (Or.inl ⟨hb, ⟨idx, d, hn, ⟨r, hr, hl⟩⟩, hw⟩)⟩
      · obtain ⟨rfl, h1⟩ := regIndex_of_regAt hr
        exact ⟨rfl, Or.inr (Or.inr (Or.inl ⟨r, d, hn, h1, h2, hw⟩))⟩
    | _ => simp only [decodeTransaction] at hd; split at hd <;> cases hd
  · rw [exec_command _ _ (decodeCommand_isCommand _ _)] at h
    cases h
    exact ⟨rfl, Or.inr (Or.inr (Or.inr (Or.inl ⟨_, decodeCommand_isCommand _ _, hn, hb, rfl⟩)))⟩
  · exact ⟨h', Or.inl h⟩
  · exact ⟨h'', Or.inr (Or.inr (Or.inr (Or.inr ⟨h, h'⟩)))⟩

end Sys2Proof.Machine
end

