-- ==== Sys2Proof/Tests/Slice0.lean ====
section
/-! SUPPORT. Tests. Expected values are the spec's: its worked encodings (30_encoding.md rules R83 and R90), its rules'
examples and the vectors of 95_test_vectors.md, named in each comment. Then one witness for the hypotheses of every
statement that has some, at the boundary values of each clause. -/

open Sys2Proof Sys2Proof.Machine Sys2Proof.Spec

namespace Sys2Proof.Tests

/-! ## Helpers -/

/-- A machine with a given engine and schedule. -/
def st (hasB32 : Bool) (e : Engine) (events : List Event) : State := { hasB32, eng := e, events, rsp := none }

/-- An engine with a command in its latch. -/
def busy (w : Word) (e : Engine) : Engine := accept e w

/-- The ASCII bytes of a decimal secret `"1234567890..."` of a given length (95_test_vectors.md vectors S1 and H3). -/
def digitsKey (n : Nat) : List Byte := (List.range n).map fun i => BitVec.ofNat 8 (0x30 + (i + 1) % 10)

/-- An engine with a secret, a counter and a configuration. -/
def keyed (key : List Byte) (ctr : BitVec 64) (digits : BitVec 4) (alg : Alg) : Engine :=
  { Engine.reset with
    key := bufferOf 64 key
    keylen := BitVec.ofNat 7 key.length
    ctr
    cfg := { digits, alg, ie := false } }

/-- An engine with a text. -/
def texted (t : List Byte) (txtlen : BitVec 8) : Engine := { Engine.reset with txt := bufferOf 104 t, txtlen }

/-- What a step left of the engine; the reset engine where it stopped. -/
def engineOf : Host.Outcome State Fault Refusal → Engine
  | .next t => t.eng
  | .fault _ => Engine.reset
  | .refused _ => Engine.reset

/-- The answer on the port. -/
def answerOf : Host.Outcome State Fault Refusal → Option Word
  | .next t => t.rsp
  | .fault _ => none
  | .refused _ => none

/-! ## Decoding: words written out from the encodings of 30_encoding.md -/

/-- `W` = 0, `IDX` = 000_0001, `DATA` = 0: `RD STATUS`, rule R90. -/
theorem test_decode_rd : decodeTransaction 0b0000000100000000000000000000000000000000 = .rd 0x01 0x00000000 := by decide

/-- `W` = 1, `IDX` = 010_0000, `DATA` = 0x31323334: `WR KEY0, 0x31323334`, rule R90. -/
theorem test_decode_wr : decodeTransaction 0b1010000000110001001100100011001100110100 = .wr 0x20 0x31323334 := by decide

/-- `RSVZ` = 0, `OP` = 0000_0001: `HOTP`, rule R83. -/
theorem test_decode_hotp : decodeCommand true 0b00000000000000000000000000000001 = .hotp := by decide

/-- `OP` = 0000_0010, rule R83; without the codec the word is illegal, rule R84. -/
theorem test_decode_b32enc : decodeCommand true 0b00000000000000000000000000000010 = .b32enc ∧
    decodeCommand false 0x00000002 = .illegal 0x00000002 := by decide

/-- `OP` = 0000_0011, rule R83; without the codec the word is illegal, rule R84. -/
theorem test_decode_b32dec : decodeCommand true 0b00000000000000000000000000000011 = .b32dec ∧
    decodeCommand false 0x00000003 = .illegal 0x00000003 := by decide

/-- `OP` = 0000_0100, rule R83. -/
theorem test_decode_clear : decodeCommand false 0b00000000000000000000000000000100 = .clear := by decide

/-- `OP` = 0, `OP` = 5, and `RSVZ` = 1 over `OP` = 1: rule R84. -/
theorem test_decode_illegal : decodeCommand true 0x00000000 = .illegal 0x00000000 ∧
    decodeCommand true 0x00000005 = .illegal 0x00000005 ∧
    decodeCommand true 0x00000101 = .illegal 0x00000101 := by decide

/-- The decoder refuses, by name, what is neither 40 nor 32 bits long (rule R80). -/
theorem test_decode_length : decodeBits true 16 0x0001 = .error (.noSuchLength 16) ∧
    decodeTableWord 40 0xC047455A44 = some (.wr 0x40 0x47455A44) ∧ decodeTableWord 32 4 = some .clear := by decide

/-! ## Well-formedness: each check refuses an ill-formed term -/

theorem test_wellFormed_b32enc_needs_codec : Instr.b32enc.wellFormed false = false := by decide

theorem test_wellFormed_b32dec_needs_codec : Instr.b32dec.wellFormed false = false := by decide

theorem test_wellFormed_illegal_is_not_hotp : (Instr.illegal 0x00000001).wellFormed false = false := by decide

theorem test_wellFormed_illegal_is_not_b32enc : (Instr.illegal 0x00000002).wellFormed true = false ∧
    (Instr.illegal 0x00000002).wellFormed false = true := by decide

/-! ## One step each -/

/-- After reset `RD CFG` returns 0x00000006 (rule R100, example); `RD ID` 0x484F5411 with the codec (rule R27). -/
theorem test_step_rd : answerOf (step (State.reset.withFetchWord 40 0x0200000000)) = some 0x00000006 ∧
    answerOf (step (State.reset.withFetchWord 40 0x0300000000)) = some 0x484F5411 := by decide +kernel

/-- `WR KEY0, 0x31323334` sets `key[0..3]` (rule R101, example). -/
theorem test_step_wr_key :
    (engineOf (step (State.reset.withFetchWord 40 0xA031323334))).key.toList.take 5 =
      [0x31, 0x32, 0x33, 0x34, 0x00] := by decide +kernel

/-- `WR KEYLEN, 0x000000C1` stores 0x41 (rule R101, corner case). -/
theorem test_step_wr_keylen :
    (engineOf (step (State.reset.withFetchWord 40 0x84000000C1))).keylen = 0x41 := by decide +kernel

/-- Vector S1: the RFC 4226 secret, counter 0, 6 digits: `TRUNC` 0x4C93CF18, `CODE_STR` "755224" (rule R190, example). -/
theorem test_step_hotp_sha1 :
    (engineOf (exec .hotp (st true (keyed (digitsKey 20) 0 6 .sha1) []))).codeStr.toList =
      [0x37, 0x35, 0x35, 0x32, 0x32, 0x34, 0x00, 0x00] := by decide +kernel

/-- Vector H3a: SHA-256, 32 bytes, counter 1, 8 digits: `TRUNC` 0x2C78E04E, `CODE` 0x02BFB94E. -/
theorem test_step_hotp_sha256 :
    (engineOf (exec .hotp (st false (keyed (digitsKey 32) 1 8 .sha256) []))).trunc = 0x2C78E04E ∧
    (engineOf (exec .hotp (st false (keyed (digitsKey 32) 1 8 .sha256) []))).code = 0x02BFB94E := by decide +kernel

/-- "f" encodes to "MY======" (rule R146, example). -/
theorem test_step_b32enc :
    (engineOf (exec .b32enc (st true (keyed [0x66] 0 6 .sha1) []))).txt.toList.take 9 =
      [0x4D, 0x59, 0x3D, 0x3D, 0x3D, 0x3D, 0x3D, 0x3D, 0x00] ∧
    (engineOf (exec .b32enc (st true (keyed [0x66] 0 6 .sha1) []))).txtlen = 8 := by decide +kernel

/-- "MZXW6===" decodes to "foo" (rule R147, example). -/
theorem test_step_b32dec :
    (engineOf (exec .b32dec (st true (texted [0x4D, 0x5A, 0x58, 0x57, 0x36, 0x3D, 0x3D, 0x3D] 8) []))).key.toList.take 4
      = [0x66, 0x6F, 0x6F, 0x00] := by decide +kernel

/-- A digit 1 in the text is `E_FORMAT` (rule R147), and the key stays. -/
theorem test_step_b32dec_format :
    (engineOf (exec .b32dec (st true (texted [0x4D, 0x31] 2) []))).status.errcode = 2 := by decide +kernel

/-- `CLEAR` keeps `CFG` and `LOCKERR`, zeroes the secret, and `STATUS` then reads 0x0A (rule R124). -/
theorem test_step_clear :
    let e := { keyed (digitsKey 20) 5 8 .sha256 with
      status := { busy := false, done := false, rvalid := true, lockerr := true, errcode := 0 } }
    let t := step ((st true e []).withFetchWord 32 0x00000004)
    (engineOf t).key = Vector.replicate 64 0 ∧ (engineOf t).cfg = e.cfg ∧
      statusWord (engineOf t).status = 0x0000000A := by decide +kernel

/-- The words 0x00000000 and 0x00000101 complete with `STATUS` 0x00000032 (rule R125, example). -/
theorem test_step_illegal :
    statusWord (engineOf (step (State.reset.withFetchWord 32 0x00000000))).status = 0x00000032 ∧
    statusWord (engineOf (step (State.reset.withFetchWord 32 0x00000101))).status = 0x00000032 := by decide +kernel

/-- A write while busy is dropped and sets `LOCKERR` (rule R105). -/
theorem test_step_dropped_write :
    let t := step (st true (busy 0x00000001 Engine.reset) [.request 0x84000000C1])
    (engineOf t).keylen = 0 ∧ (engineOf t).status.lockerr = true := by decide +kernel

/-- Vectors K2 and K8: SHA-1 and SHA-256 of "abc" (43_hash_hmac.md rules R165 and R169). -/
theorem test_hash_abc :
    wordsBE (sha1 [0x61, 0x62, 0x63]) = [0xa9993e36, 0x4706816a, 0xba3e2571, 0x7850c26c, 0x9cd0d89d] ∧
    (wordsBE (sha256 [0x61, 0x62, 0x63])).take 4 = [0xba7816bf, 0x8f01cfea, 0x414140de, 0x5dae2223] := by
  decide +kernel

/-! ## Witnesses: concrete values that meet the hypotheses of each statement -/

/-- A transaction to have pending. -/
def anyHT : Transaction := 0x84000000C1

theorem witness_StepRunsDecodedInstruction :
    (st true Engine.reset [.request anyHT]).events = .request anyHT :: [] ∧
    (st true (busy 1 Engine.reset) [.completion]).events = .completion :: [] ∧
    ((st true (busy 1 Engine.reset) []).events = [] ∧ ([] : List Event) = []) ∧
    (st true (busy 1 Engine.reset) []).eng.status.busy = true ∧
    (st true Engine.reset []).eng.status.busy = false := by decide

theorem witness_ResetFromEveryState :
    (st true (busy 1 Engine.reset) [.reset (some anyHT)]).events = .reset (some anyHT) :: [] ∧
    (st false Engine.reset [.reset none]).events = .reset none :: [] := by decide

theorem witness_RdReturnsRegisterValue :
    (0x7FFFFFFFFF : Transaction).toNat = 2 ^ 32 * (0x7F : Index).toNat + (0xFFFFFFFF : Word).toNat ∧
    (0x0000000000 : Transaction).toNat = 2 ^ 32 * (0x00 : Index).toNat + (0x00000000 : Word).toNat := by decide

theorem witness_WrHasRegisterEffect :
    (0xFFFFFFFFFF : Transaction).toNat = 2 ^ 32 * (0x80 + (0x7F : Index).toNat) + (0xFFFFFFFF : Word).toNat ∧
    (0x8000000000 : Transaction).toNat = 2 ^ 32 * (0x80 + (0x00 : Index).toNat) + (0x00000000 : Word).toNat := by decide

theorem witness_BusyReadReturnsZero :
    (st true (busy 1 Engine.reset) []).eng.status.busy = true ∧
    ∀ idx ∈ [(0x00 : Index), 0x02, 0x04, 0x7F], idx ≠ 0x01 ∧ idx ≠ 0x03 := by decide

theorem witness_BusyWriteIsDropped :
    (st true (busy 1 Engine.reset) []).eng.status.busy = true ∧
    (∀ idx ∈ [(0x00 : Index), 0x02, 0x04, 0x06, 0x07, 0x20, 0x2F, 0x05, 0x40, 0x59],
      lockableIndex true idx.toNat) ∧
    (∀ idx ∈ [(0x00 : Index), 0x02, 0x04, 0x06, 0x07, 0x20, 0x2F], lockableIndex false idx.toNat) := by
  unfold lockableIndex; decide

theorem witness_UnmappedAndReadOnlyIgnoreWrites :
    (∀ idx ∈ [(0x0C : Index), 0x0F, 0x18, 0x1F, 0x30, 0x3F, 0x5A, 0x7F], unmappedIndex true idx.toNat) ∧
    (∀ idx ∈ [(0x05 : Index), 0x40, 0x59], unmappedIndex false idx.toNat) ∧
    (∀ idx ∈ [(0x03 : Index), 0x08, 0x0B, 0x10, 0x17], readOnlyIndex idx.toNat) := by
  unfold unmappedIndex readOnlyIndex; exact ⟨by decide, by decide, by decide⟩

theorem witness_RegisterMapPartition :
    regAt true 0x00 = some .cmd ∧ regAt true 0x01 = some .status ∧ regAt true 0x17 = some (.digest 7) ∧
    regAt true 0x59 = some (.txt 25) ∧ regAt false 0x2F = some (.key 15) := by decide

theorem witness_StatusWriteOneToClear :
    (0x0000000A : Word).getLsbD 1 = true ∧ (0x0000000A : Word).getLsbD 3 = true ∧
    (0xFFFFFFF5 : Word).getLsbD 1 = false := by decide

/-- A read of `STATUS` and one of the last index, on a busy engine. -/
theorem witness_ReadsHaveNoSideEffect :
    ((0x0100000000 : Transaction).getLsbD 39 = false ∧ (0x7F00000000 : Transaction).getLsbD 39 = false) ∧
    (st true (busy 1 Engine.reset) (([0x0100000000, 0x7F00000000] : List Transaction).map .request ++ [])).events =
      ([0x0100000000, 0x7F00000000] : List Transaction).map .request ++ [] := ⟨by decide, rfl⟩

theorem witness_WrittenValueIsReadBack :
    (st true Engine.reset []).eng.status.busy = false ∧
    ∀ idx ∈ [(0x02 : Index), 0x04, 0x05, 0x06, 0x07, 0x20, 0x2F, 0x40, 0x59],
      idx ≠ 0x00 ∧ lockableIndex true idx.toNat := by
  unfold lockableIndex; decide

theorem witness_WriteLeavesOtherRegisters :
    lockableIndex (st true (busy 1 Engine.reset) []).hasB32 (0x02 : Index).toNat ∧ (0x02 : Index) ≠ 0x00 ∧
    (0x04 : Index) ≠ 0x02 ∧ ((st true (busy 1 Engine.reset) []).eng.status.busy = true → (0x04 : Index) ≠ 0x01) ∧
    ((st true Engine.reset []).eng.status.busy = true → (0x01 : Index) ≠ 0x01) := by
  unfold lockableIndex; decide

theorem witness_AcceptLatchesEveryWord :
    (st true Engine.reset []).eng.status.busy = false ∧ (st true (busy 1 Engine.reset) []).eng.status.busy = true ∧
    exec (.wr 0x00 0xFFFFFFFF) (st true Engine.reset []) =
      .next { st true (busy 0xFFFFFFFF Engine.reset) [] with rsp := some 0 } := ⟨rfl, rfl, rfl⟩

theorem witness_CompletionFlags :
    ∀ i ∈ [Instr.hotp, .b32enc, .b32dec, .clear, .illegal 0x00000000, .illegal 0xFFFFFFFF], isCommand i = true := by
  decide

/-- A `HOTP` with 4 digits, and an illegal word. -/
theorem witness_ErrorCompletionWritesOnlyStatus :
    (isCommand .hotp = true ∧ ∃ t, exec .hotp (st true (keyed [] 0 4 .sha1) []) = .next t ∧ t.eng.status.errcode ≠ 0) ∧
    (isCommand (.illegal 5) = true ∧
      ∃ t, exec (.illegal 5) (st true Engine.reset []) = .next t ∧ t.eng.status.errcode ≠ 0) :=
  ⟨⟨rfl, _, rfl, by decide +kernel⟩, rfl, _, rfl, by decide +kernel⟩

theorem witness_IllegalWordCompletesWithECmd :
    (let s := st true (busy 0x00000005 Engine.reset) [.completion]
     s.eng.status.busy = true ∧ s.events = .completion :: [] ∧ s.eng.cmdLatch ≠ 0x00000001 ∧
      s.eng.cmdLatch ≠ 0x00000004 ∧ (s.hasB32 = true → s.eng.cmdLatch ≠ 0x00000002 ∧ s.eng.cmdLatch ≠ 0x00000003)) ∧
    (let s := st false (busy 0x00000002 Engine.reset) [.completion]
     s.eng.status.busy = true ∧ s.events = .completion :: [] ∧ s.eng.cmdLatch ≠ 0x00000001 ∧
      s.eng.cmdLatch ≠ 0x00000004 ∧
      (s.hasB32 = true → s.eng.cmdLatch ≠ 0x00000002 ∧ s.eng.cmdLatch ≠ 0x00000003)) := by
  decide

theorem witness_ClearZeroises :
    (st true Engine.reset []).hasB32 = true ∧ (st false Engine.reset []).hasB32 = false := by decide

/-- A command that is well-formed for an engine with the codec and writes the error code `c` there. -/
def writesCode (i : Instr) (e : Engine) (c : BitVec 4) : Prop :=
  isCommand i = true ∧ i.wellFormed true = true ∧ ∃ t, exec i (st true e []) = .next t ∧ t.eng.status.errcode = c

/-- One command for each code 0 to 6, the causes of 60_exceptions.md rule R210 at their boundaries. -/
theorem witness_ErrorCodesHaveTheirCauses :
    writesCode .clear Engine.reset 0 ∧
    writesCode .hotp (keyed [] 0 5 .sha1) 1 ∧ writesCode .hotp (keyed [] 0 9 .sha1) 1 ∧
    writesCode .b32dec (texted [0x31] 1) 2 ∧
    writesCode (.illegal 0x00000005) Engine.reset 3 ∧
    writesCode .hotp { Engine.reset with keylen := 65 } 4 ∧ writesCode .b32enc { Engine.reset with keylen := 65 } 4 ∧
    writesCode .b32dec (texted [] 105) 5 ∧
    writesCode .b32dec (texted (List.replicate 104 0x41) 104) 6 :=
  ⟨⟨rfl, rfl, _, rfl, by decide +kernel⟩, ⟨rfl, rfl, _, rfl, by decide +kernel⟩, ⟨rfl, rfl, _, rfl, by decide +kernel⟩,
    ⟨rfl, rfl, _, rfl, by decide +kernel⟩, ⟨rfl, rfl, _, rfl, by decide +kernel⟩, ⟨rfl, rfl, _, rfl, by decide +kernel⟩,
    ⟨rfl, rfl, _, rfl, by decide +kernel⟩, ⟨rfl, rfl, _, rfl, by decide +kernel⟩, ⟨rfl, rfl, _, rfl, by decide +kernel⟩⟩

theorem witness_RunningCommandIsUndisturbed :
    (st true (busy 1 Engine.reset) [.request anyHT, .completion]).eng.status.busy = true ∧
    (st true (busy 1 Engine.reset) [.request anyHT, .completion]).events =
      [anyHT].map .request ++ .completion :: [] := by decide

theorem witness_ResetAbandonsCommand :
    (st true (busy 1 Engine.reset) [.request anyHT, .reset none]).events =
      [anyHT].map .request ++ .reset none :: [] := by decide

theorem witness_HotpComputesCode :
    (∀ d ∈ [(0 : BitVec 4), 5, 9, 15], (keyed [] 0 d .sha1).cfg.digits.toNat < 6 ∨
      8 < (keyed [] 0 d .sha1).cfg.digits.toNat) ∧
    (∀ d ∈ [(6 : BitVec 4), 7, 8], 6 ≤ (keyed [] 0 d .sha1).cfg.digits.toNat ∧
      (keyed [] 0 d .sha1).cfg.digits.toNat ≤ 8) ∧
    64 < ({ Engine.reset with keylen := 65 } : Engine).keylen.toNat ∧
    ({ Engine.reset with keylen := 64 } : Engine).keylen.toNat ≤ 64 ∧ Engine.reset.keylen.toNat ≤ 64 := by decide +kernel

/-- Two engines that share secret, counter, digits and algorithm and differ in a key byte past the secret, in the text
and in the interrupt enable. -/
theorem witness_HotpResultsArePure :
    let e := keyed [0x31] 1 6 .sha1
    let e' := { e with
      key := bufferOf 64 [0x31, 0xFF], txt := Vector.replicate 104 0x41, cfg := { e.cfg with ie := true } }
    (e.keylen = e'.keylen ∧ (∀ j : Fin 64, j.val < e.keylen.toNat → e.key[j] = e'.key[j]) ∧ e.ctr = e'.ctr ∧
      e.cfg.digits = e'.cfg.digits ∧ e.cfg.alg = e'.cfg.alg) ∧
    ∃ t t', exec .hotp (st true e []) = .next t ∧ exec .hotp (st true e' []) = .next t' ∧ t.eng.status.errcode = 0 :=
  ⟨by decide +kernel, _, _, rfl, rfl, by decide +kernel⟩

theorem witness_TruncationWindowExists :
    ∃ mac o, mac = hmac .sha256 [0x31] [0x00] ∧ o = truncOffset mac := ⟨_, _, rfl, rfl⟩

/-- The example of 44_hotp.md rule R190 with a leading zero, and the boundaries. -/
theorem witness_DecimalStringDenotesCode : 5924 < 10 ^ 6 ∧ 0 < 10 ^ 0 ∧ 99999999 < 10 ^ 8 := by decide

theorem witness_HotpResultLayout :
    ∃ t, exec .hotp (st true (keyed (digitsKey 20) 1 7 .sha256) []) = .next t ∧ t.eng.status.errcode = 0 :=
  ⟨_, rfl, by decide +kernel⟩

theorem witness_MacIsFourCompressions : ([] : List Byte).length ≤ 64 ∧ (List.replicate 64 (0xFF : Byte)).length ≤ 64 := by
  decide

theorem witness_PaddingFillsWholeBlocks :
    ([] : List Byte).length < 2 ^ 61 ∧ (List.replicate 56 (0xFF : Byte)).length < 2 ^ 61 := by decide

theorem witness_HmacIgnoresTrailingZeros : (List.replicate 20 (0x31 : Byte)).length + 44 ≤ 64 := by decide

theorem witness_Base32EncodeGivesFiveBitGroups :
    let b := List.replicate 64 (0xFF : Byte)
    64 = b.length ∧ 103 = (8 * 64 + 4) / 5 ∧ 102 < 103 ∧ (103 ≤ 103 ∧ 103 < 8 * ((64 + 4) / 5)) := by decide

/-- Malformed: a space, and one character alone; well-formed: "MY" and the empty text. -/
theorem witness_Base32DecodeGivesBytes :
    badText [0x20] ∧ badText [0x4D] ∧ ¬ badText [0x4D, 0x59] ∧ ¬ badText [] := by
  unfold badText acceptedChar badCount; decide

theorem witness_B32encWritesText :
    (st true Engine.reset []).hasB32 = true ∧ 64 < ({ Engine.reset with keylen := 65 } : Engine).keylen.toNat ∧
    ({ Engine.reset with keylen := 64 } : Engine).keylen.toNat ≤ 64 := by decide

/-- One text for each clause: too long, malformed, 104 characters without padding, 103 of them, empty. -/
theorem witness_B32decWritesKey :
    let a104 := List.replicate 104 (0x41 : Byte)
    let a103 := List.replicate 103 (0x41 : Byte)
    ((st true (texted [] 105) []).hasB32 = true ∧ 104 < (texted [] 105).txtlen.toNat) ∧
    ([0x31] = (texted [0x31] 1).txt.toList.take (texted [0x31] 1).txtlen.toNat ∧ badText [0x31]) ∧
    (a104 = (texted a104 104).txt.toList.take (texted a104 104).txtlen.toNat ∧ ¬ badText a104 ∧
      64 < 5 * (alphabetChars a104).length / 8) ∧
    (a103 = (texted a104 103).txt.toList.take (texted a104 103).txtlen.toNat ∧ ¬ badText a103 ∧
      5 * (alphabetChars a103).length / 8 ≤ 64) ∧
    (¬ badText [] ∧ 5 * (alphabetChars []).length / 8 ≤ 64) := by
  unfold badText acceptedChar badCount
  exact ⟨by decide, ⟨by decide +kernel, by decide⟩, ⟨by decide +kernel, by decide +kernel, by decide +kernel⟩,
    ⟨by decide +kernel, by decide +kernel, by decide +kernel⟩, by decide, by decide⟩

theorem witness_OverflowNeedsFullText :
    ∃ t, exec .b32dec (st true (texted (List.replicate 104 0x41) 104) []) = .next t ∧ t.eng.status.errcode = 6 :=
  ⟨_, rfl, by decide +kernel⟩

theorem witness_EngineBase32RoundTrip :
    (st true (keyed (digitsKey 20) 0 6 .sha1) []).hasB32 = true ∧
    (st true (keyed (digitsKey 20) 0 6 .sha1) []).eng.keylen.toNat ≤ 64 := by decide +kernel

/-- A busy engine meets the invariant, and so does one with a valid result of seven digits. -/
theorem witness_StepKeepsInvariant :
    Inv (busy 1 Engine.reset) ∧
    Inv { Engine.reset with
      trunc := 0x7FFFFFFF, code := 7483647, codeStr := codeStrOf 7483647 7
      status := { busy := false, done := true, rvalid := true, lockerr := false, errcode := 6 } } ∧
    ∃ t, step (st true (busy 1 Engine.reset) []) = .next t :=
  ⟨⟨fun _ => rfl, fun _ => rfl, rfl, by decide, by decide, fun h => absurd h (by decide)⟩,
   ⟨fun h => absurd h (by decide), fun h => absurd h (by decide), rfl, by decide, by decide,
    fun _ => ⟨7, by decide, by decide, by decide, rfl⟩⟩, _, rfl⟩

theorem witness_StepKeepsCodecParameter :
    CodecAbsent (st false Engine.reset [.request 0x8500000001]) ∧
    (st false Engine.reset [.request 0x8500000001]).hasB32 = false ∧
    ∃ t, step (st false Engine.reset [.request 0x8500000001]) = .next t :=
  ⟨fun _ => ⟨rfl, rfl⟩, rfl, _, rfl⟩

theorem witness_BusyChangesOnlyByAcceptAndCompletion :
    (∃ t, step (st true Engine.reset [.request 0x8000000001]) = .next t ∧
      (st true Engine.reset []).eng.status.busy = false ∧ t.eng.status.busy = true) ∧
    (∃ t, step (st true (busy 4 Engine.reset) [.completion]) = .next t ∧
      (st true (busy 4 Engine.reset) []).eng.status.busy = true ∧ t.eng.status.busy = false) :=
  ⟨⟨_, rfl, rfl, by decide +kernel⟩, _, rfl, rfl, by decide +kernel⟩

theorem witness_LockErrChangesOnlyByDropAndClear :
    (∃ t, step (st true (busy 4 Engine.reset) [.request anyHT]) = .next t ∧
      (busy 4 Engine.reset).status.lockerr = false ∧ t.eng.status.lockerr = true) ∧
    (∃ t, step (st true { Engine.reset with status := statusLockErr Engine.reset.status } [.request 0x8100000008]) = .next t ∧
      (statusLockErr Engine.reset.status).lockerr = true ∧ t.eng.status.lockerr = false) :=
  ⟨⟨_, rfl, rfl, by decide +kernel⟩, _, rfl, rfl, by decide +kernel⟩

/-- An engine whose last `HOTP` succeeded, with the command `w` running. -/
def validAnd (w : Word) : Engine := busy w { Engine.reset with status := statusRvalid Engine.reset.status true }

theorem witness_RvalidChangesOnlyByHotpAndClear :
    (∃ t, step (st true (busy 1 Engine.reset) []) = .next t ∧
      (busy 1 Engine.reset).status.rvalid = false ∧ t.eng.status.rvalid = true) ∧
    (∃ t, step (st true (validAnd 4) []) = .next t ∧ (validAnd 4).status.rvalid = true ∧ t.eng.status.rvalid = false) :=
  ⟨⟨_, rfl, rfl, by decide +kernel⟩, _, rfl, rfl, by decide +kernel⟩

/-- A failed `HOTP` on an engine with results, and a write of an operand. -/
theorem witness_ResultsAreSnapshots :
    (let s := st true { validAnd 1 with keylen := 65 } []
     ∃ t, step s = .next t ∧ resetNext s = false ∧ nextInstr s ≠ some .clear ∧
      ¬ (nextInstr s = some .hotp ∧ t.eng.status.errcode = 0)) ∧
    (let s := st true Engine.reset [.request anyHT]
     ∃ t, step s = .next t ∧ resetNext s = false ∧ nextInstr s ≠ some .clear ∧
      ¬ (nextInstr s = some .hotp ∧ t.eng.status.errcode = 0)) :=
  ⟨⟨_, rfl, rfl, by decide +kernel, by decide +kernel⟩, _, rfl, rfl, by decide +kernel, by decide +kernel⟩

theorem witness_CounterIsNeverManaged :
    (∃ t, step (st true Engine.reset [.request 0x86FFFFFFFF]) = .next t ∧ t.eng.ctr ≠ Engine.reset.ctr) ∧
    (∃ t, step (st true Engine.reset [.request 0x87FFFFFFFF]) = .next t ∧ t.eng.ctr ≠ Engine.reset.ctr) :=
  ⟨⟨_, rfl, by decide +kernel⟩, _, rfl, by decide +kernel⟩

theorem witness_SecretStaysUntilOverwritten :
    (∃ t, step (st true Engine.reset [.request 0xA031323334]) = .next t ∧ t.eng.key ≠ Engine.reset.key) ∧
    (∃ t, step (st true Engine.reset [.request 0xAF00000001]) = .next t ∧ t.eng.key ≠ Engine.reset.key) :=
  ⟨⟨_, rfl, by decide +kernel⟩, _, rfl, by decide +kernel⟩

theorem witness_InterruptRisesByCompletionOrEnable :
    (let s := st true (busy 5 { Engine.reset with cfg := { Engine.reset.cfg with ie := true } }) []
     ∃ t, step s = .next t ∧ irq s.eng = false ∧ irq t.eng = true) ∧
    (let s := st true { Engine.reset with status := statusComplete Engine.reset.status 0 } [.request 0x8200000106]
     ∃ t, step s = .next t ∧ irq s.eng = false ∧ irq t.eng = true) :=
  ⟨⟨_, rfl, rfl, by decide +kernel⟩, _, rfl, rfl, by decide +kernel⟩

theorem witness_IdleLatchIsInvisible : (st true Engine.reset [.request 0x8000000001]).eng.status.busy = false := by decide

theorem witness_DecodeOfEncode :
    (∀ i ∈ [Instr.rd 0x7F 0xFFFFFFFF, .wr 0x00 0x00000000, .hotp, .b32enc, .b32dec, .clear, .illegal 0x00000000,
      .illegal 0xFFFFFFFF], i.wellFormed true = true) ∧ (Instr.illegal 0x00000002).wellFormed false = true := by decide

/-- The empty secret, one byte, and a full buffer. -/
theorem witness_LdKeyLoadsSecret :
    ∀ b ∈ [[], [(0x31 : Byte)], List.replicate 64 0x31], ∃ requests, ldKey b = some requests ∧
      (st true Engine.reset (requests.map .request)).eng.status.busy = false ∧
      (st true Engine.reset (requests.map .request)).events = requests.map .request ++ [] := by
  intro b hb
  have h : ldKey b = some _ := if_pos (show b.length ≤ Config.keyMax by revert b; decide)
  exact ⟨_, h, rfl, (List.append_nil _).symm⟩

theorem witness_LdCtrLoadsCounter :
    (st true Engine.reset ((ldCtr 0xFFFFFFFFFFFFFFFF).map .request)).eng.status.busy = false ∧
    (st true Engine.reset ((ldCtr 0xFFFFFFFFFFFFFFFF).map .request)).events =
      (ldCtr 0xFFFFFFFFFFFFFFFF).map .request ++ [] := by decide

/-- The first and the last word, a misaligned and a narrow access (20_memory.md rules R60 and R62). -/
theorem witness_WordAccessReachesIndex :
    indexOfByteOffset 0x000 4 = some 0x00 ∧ indexOfByteOffset 0x1FC 4 = some 0x7F ∧
    indexOfByteOffset 0x002 4 = none ∧ indexOfByteOffset 0x000 2 = none ∧ indexOfByteOffset 0x200 4 = none := by decide

/-- A cycle's input wires. -/
def wires (rst reqValid reqWrite : Bool) (reqAddr : Index) (reqWdata : Word) : PortIn :=
  { rst, reqValid, reqWrite, reqAddr, reqWdata }

/-- A reset cycle; on a busy engine a read of `STATUS`, a clear of `DONE`, a write of the first and the last lockable
index and one of an unmapped index; a cycle without a transaction. -/
theorem witness_CycleOrdersTransactionFirst :
    (wires true true true 0x04 1).rst = true ∧
    (st true (busy 1 Engine.reset) []).eng.status.busy = true ∧
    (∀ p ∈ [wires false true false 0x01 0, wires false true true 0x01 0x00000002, wires false true true 0x00 1,
      wires false true true 0x59 1, wires false true true 0x7F 1], p.rst = false ∧ p.reqValid = true) ∧
    ((wires false true true 0x01 0x00000002).reqWrite = true ∧
      (wires false true true 0x01 0x00000002).reqWdata.getLsbD 1 = true) ∧
    lockableIndex true (wires false true true 0x00 1).reqAddr.toNat ∧
    lockableIndex true (wires false true true 0x59 1).reqAddr.toNat ∧
    ((wires false false false 0x00 0).rst = false ∧ (wires false false false 0x00 0).reqValid = false) := by
  unfold lockableIndex; exact ⟨by decide, by decide, by decide, by decide, by decide, by decide, by decide⟩

/-- The premise of `CodecAbsent` is met by the reset state of an engine without the codec. -/
theorem witness_InvariantHoldsAtReset : ({ State.reset with hasB32 := false } : State).hasB32 = false := by decide

end Sys2Proof.Tests
end

section
/-! PROOFS. The statements of 00_scope.md: which word a host access reaches, and which instruction a step runs. -/

namespace Sys2Proof.Machine

/-! ## Byte offsets -/

/-- The offset in the form of 20_memory.md rule R60: aligned and in range is `4*i` for an index `i` of 7 bits. -/
theorem aligned_offset_iff (addr : Nat) (i : Index) :
    ((addr % 4 = 0 ∧ addr ≤ 0x1FC) ∧ BitVec.ofNat 7 (addr / 4) = i) ↔ addr = 4 * i.toNat := by
  have hi : i.toNat < 128 := i.isLt
  rw [← BitVec.toNat_inj, BitVec.toNat_ofNat]
  omega

/-- Settles O55: the access of `indexOfByteOffset` is the aligned offset of a 7-bit index. -/
theorem wordAccessReachesIndex : Obligations.WordAccessReachesIndex := by
  intro addr n i
  rw [indexOfByteOffset, Option.ite_none_right_eq_some, Option.some.injEq, and_assoc, aligned_offset_iff]

/-! ## The command decoder by full words -/

/-- The decoder's two fields compare the full word with the words of 30_encoding.md rule R83
(41_command_sequencer.md rule R122). -/
theorem decodeCommand_eq (hasB32 : Bool) (w : Word) :
    decodeCommand hasB32 w =
      if w = 0x00000001 then .hotp
      else if w = 0x00000002 then (if hasB32 then .b32enc else .illegal w)
      else if w = 0x00000003 then (if hasB32 then .b32dec else .illegal w)
      else if w = 0x00000004 then .clear
      else .illegal w := by
  have h1 : w = 0x00000001 ↔ w.extractLsb' 8 24 = 0 ∧ w.extractLsb' 0 8 = 0x01 := word_eq_iff w 1 (by decide)
  have h2 : w = 0x00000002 ↔ w.extractLsb' 8 24 = 0 ∧ w.extractLsb' 0 8 = 0x02 := word_eq_iff w 2 (by decide)
  have h3 : w = 0x00000003 ↔ w.extractLsb' 8 24 = 0 ∧ w.extractLsb' 0 8 = 0x03 := word_eq_iff w 3 (by decide)
  have h4 : w = 0x00000004 ↔ w.extractLsb' 8 24 = 0 ∧ w.extractLsb' 0 8 = 0x04 := word_eq_iff w 4 (by decide)
  rw [decodeCommand]
  by_cases hi : w.extractLsb' 8 24 = 0
  · simp only [h1, h2, h3, h4, hi, true_and, ne_eq, not_true_eq_false, if_false]
  · simp only [h1, h2, h3, h4, hi, false_and, ne_eq, not_false_eq_true, if_true, if_false]

theorem mem_legalWords (hasB32 : Bool) (w : Word) :
    w ∈ legalWords hasB32 ↔
      w = 0x00000001 ∨ w = 0x00000004 ∨ (hasB32 = true ∧ (w = 0x00000002 ∨ w = 0x00000003)) := by
  cases hasB32 with
  | false => simp [legalWords]
  | true =>
    simp only [legalWords, if_true, List.mem_cons, List.not_mem_nil, or_false, true_and]
    tauto

theorem illegal_wellFormed_iff (hasB32 : Bool) (w : Word) :
    (Instr.illegal w).wellFormed hasB32 = true ↔ w ∉ legalWords hasB32 := by
  simp [Instr.wellFormed]

theorem decodeCommand_wellFormed (hasB32 : Bool) (w : Word) :
    (decodeCommand hasB32 w).wellFormed hasB32 = true := by
  rw [decodeCommand_eq]
  split_ifs with h1 h2 hb h3 hb h4
  · rfl
  · exact hb
  · exact (illegal_wellFormed_iff _ _).2 (by simp [mem_legalWords, h2, hb])
  · exact hb
  · exact (illegal_wellFormed_iff _ _).2 (by simp [mem_legalWords, h3, hb])
  · rfl
  · exact (illegal_wellFormed_iff _ _).2 (by rw [mem_legalWords]; tauto)

/-! ## Whose turn it is -/

theorem step_request {s : State} {ht : Transaction} {rest : List Event} (he : s.events = .request ht :: rest) :
    step s = exec (decodeTransaction ht) { s with events := rest } := by
  rw [step, agentStep, he]; rfl

/-- The engine's turn is a scheduled completion, or the empty schedule (log entries 2 and 3). -/
theorem step_engineTurn {s : State} {rest : List Event}
    (he : s.events = .completion :: rest ∨ s.events = [] ∧ rest = []) :
    step s = engineStep { s with events := rest } := by
  obtain ⟨hasB32, eng, events, rsp⟩ := s
  obtain rfl | ⟨rfl, rfl⟩ : events = .completion :: rest ∨ events = [] ∧ rest = [] := he
  · rfl
  · rfl

theorem engineStep_busy {s : State} (hb : s.eng.status.busy = true) :
    engineStep s = exec (decodeCommand s.hasB32 s.eng.cmdLatch) s := if_pos hb

theorem engineStep_idle {s : State} (hb : s.eng.status.busy = false) :
    engineStep s = .next { s with rsp := none } := if_neg (by rw [hb]; decide)

/-- Settles O1: the host's turn, then the engine's turn, busy or idle. -/
theorem stepRunsDecodedInstruction : Obligations.StepRunsDecodedInstruction := by
  refine ⟨fun s ht rest he => ⟨decodeTransaction_wellFormed _ _, step_request he⟩,
    fun s rest he => ⟨fun hb => ?busy, fun hb => ?idle⟩⟩
  case busy => exact ⟨decodeCommand_wellFormed _ _, (step_engineTurn he).trans (engineStep_busy hb)⟩
  case idle => exact (step_engineTurn he).trans (engineStep_idle hb)

end Sys2Proof.Machine
end

section
/-! PROOFS. The statements of 10_state.md: the base case of the invariants, which step changes which element of the
state, and the hidden latch. -/

open Sys2Proof.Spec

namespace Sys2Proof.Machine

/-! ## The base case of the invariants -/

/-- Settles O38: each clause at the reset values of 10_state.md rule R36. -/
theorem invariantHoldsAtReset : Obligations.InvariantHoldsAtReset := by
  refine ⟨⟨fun _ => rfl, fun _ => rfl, rfl, by decide, by decide, fun hvalid => ?_⟩, fun _ _ => ⟨rfl, rfl⟩⟩
  cases hvalid

/-! ## When a command succeeds, and with which updates -/

theorem hotpCommand_eq_ok_iff (e e' : Engine) :
    hotpCommand e = .ok e' ↔
      (6 ≤ e.cfg.digits.toNat ∧ e.cfg.digits.toNat ≤ 8) ∧ e.keylen.toNat ≤ 64 ∧ hotpResults e = e' := by
  simp only [hotpCommand, Config.digitsMin, Config.digitsMax, Config.keyMax]
  split_ifs with hd hk
  · simp only [false_iff]; omega
  · simp only [false_iff]; omega
  · have hdigits : 6 ≤ e.cfg.digits.toNat ∧ e.cfg.digits.toNat ≤ 8 := by omega
    have hkeylen : e.keylen.toNat ≤ 64 := by omega
    simp [hdigits, hkeylen]

theorem b32encCommand_eq_ok_iff (hasB32 : Bool) (e e' : Engine) :
    b32encCommand hasB32 e = .ok e' ↔
      hasB32 = true ∧ e.keylen.toNat ≤ 64 ∧
        { e with
          txt := bufferOf 104 (b32Encode (secret e))
          txtlen := BitVec.ofNat 8 (b32Encode (secret e)).length } = e' := by
  simp only [b32encCommand, Config.keyMax]
  split_ifs with hb hk
  · simp [hb]
  · simp only [false_iff]; omega
  · have hkeylen : e.keylen.toNat ≤ 64 := by omega
    simp [hb, hkeylen]

theorem b32decCommand_eq_ok_iff (hasB32 : Bool) (e e' : Engine) :
    b32decCommand hasB32 e = .ok e' ↔
      hasB32 = true ∧ e.txtlen.toNat ≤ 104 ∧ ∃ r, b32Decode (text e) = .ok r ∧ r.length ≤ 64 ∧
        { e with key := bufferOf 64 r, keylen := BitVec.ofNat 7 r.length } = e' := by
  simp only [b32decCommand, Config.txtMax, Config.keyMax]
  split_ifs with hb ht
  · simp [hb]
  · simp only [false_iff]; omega
  · have htxtlen : e.txtlen.toNat ≤ 104 := by omega
    cases hr : b32Decode (text e) with
    | error c => simp
    | ok r =>
      by_cases hl : r.length ≤ 64
      · simp [hb, htxtlen, hl, Nat.not_lt.2 hl]
      · simp [hl, Nat.not_le.1 hl]

/-- Everything a command that succeeds can be: only `HOTP` and `CLEAR` write `RVALID`, only the codec's commands and
`CLEAR` write the operands. -/
theorem commandRule_ok_cases {hasB32 : Bool} {i : Instr} {e e' : Engine} (hi : isCommand i = true)
    (h : commandRule hasB32 i e = .ok e') :
    (i = .hotp ∧ e' = hotpResults e) ∨
    (hasB32 = true ∧ ∃ txt txtlen, e' = { e with txt, txtlen }) ∨
    (hasB32 = true ∧ i = .b32dec ∧ ∃ key keylen, e' = { e with key, keylen }) ∨
    (i = .clear ∧ clearCommand hasB32 e = .ok e') := by
  cases i with
  | rd | wr => simp [isCommand] at hi
  | hotp =>
    obtain ⟨_, _, he⟩ := (hotpCommand_eq_ok_iff e e').1 h
    exact .inl ⟨rfl, he.symm⟩
  | b32enc =>
    obtain ⟨hb, _, he⟩ := (b32encCommand_eq_ok_iff hasB32 e e').1 h
    exact .inr (.inl ⟨hb, _, _, he.symm⟩)
  | b32dec =>
    obtain ⟨hb, _, r, _, _, he⟩ := (b32decCommand_eq_ok_iff hasB32 e e').1 h
    exact .inr (.inr (.inl ⟨hb, rfl, _, _, he.symm⟩))
  | clear => exact .inr (.inr (.inr ⟨rfl, h⟩))
  | illegal w => cases h

theorem completed_cases (k : Bool) (c : Engine → Except CmdError Engine) (e : Engine) :
    (∃ e', c e = .ok e' ∧ completed k c e = completeOk e') ∨ (∃ x, completed k c e = completeErr k e x) := by
  cases h : c e with
  | ok e' => exact .inl ⟨e', rfl, completed_ok h⟩
  | error x => exact .inr ⟨x, completed_error h⟩

/-- No command changes `LOCKERR` (41_command_sequencer.md rules R121 and R123). -/
theorem completed_lockerr (hasB32 k : Bool) (i : Instr) (e : Engine) :
    (completed k (commandRule hasB32 i) e).status.lockerr = e.status.lockerr := by
  rcases completed_cases k (commandRule hasB32 i) e with ⟨e', hok, h⟩ | ⟨x, h⟩
  · rw [h]; exact (commandRule_keeps _ _ _ _ hok).lock
  · rw [h]; rfl

/-! ## What the write of a register leaves -/

theorem writeReg_rvalid (e : Engine) (r : Reg) (v : Word) : (writeReg e r v).status.rvalid = e.status.rvalid := by
  cases r <;> rfl

theorem writeReg_lockerr (e : Engine) {r : Reg} (v : Word) (hr : r ≠ .status) :
    (writeReg e r v).status.lockerr = e.status.lockerr := by
  cases r with
  | status => exact absurd rfl hr
  | _ => rfl

theorem writeReg_ctr (e : Engine) {r : Reg} (v : Word) (hhi : r ≠ .ctrHi) (hlo : r ≠ .ctrLo) :
    (writeReg e r v).ctr = e.ctr := by
  cases r with
  | ctrHi => exact absurd rfl hhi
  | ctrLo => exact absurd rfl hlo
  | _ => rfl

theorem writeReg_key (e : Engine) {r : Reg} (v : Word) (hr : ∀ n, r ≠ .key n) : (writeReg e r v).key = e.key := by
  cases r with
  | key n => exact absurd rfl (hr n)
  | _ => rfl

theorem writeReg_text (e : Engine) {r : Reg} (v : Word) (hr : needsCodec r = false) :
    (writeReg e r v).txt = e.txt ∧ (writeReg e r v).txtlen = e.txtlen := by
  cases r with
  | txt | txtlen => simp [needsCodec] at hr
  | _ => exact ⟨rfl, rfl⟩

theorem regIndex_key_toNat (n : Fin 16) : (regIndex (.key n)).toNat = 0x20 + n.val := by
  simp only [regIndex, BitVec.toNat_ofNat]
  omega

theorem regIndex_txt_toNat (n : Fin 26) : (regIndex (.txt n)).toNat = 0x40 + n.val := by
  simp only [regIndex, BitVec.toNat_ofNat]
  omega

/-- The lockable registers stand at the indices of 40_host_access.md rule R102. -/
theorem lockableIndex_of_lockable {hasB32 : Bool} {idx : Index} {r : Reg} (hr : regAt hasB32 idx = some r)
    (hl : lockable r = true) : lockableIndex hasB32 idx.toNat := by
  obtain ⟨rfl, hc⟩ := regIndex_of_regAt hr
  unfold lockableIndex
  cases r with
  | status | id | code | trunc | codeStr0 | codeStr1 | digest => simp [lockable] at hl
  | cmd | cfg | keylen | ctrHi | ctrLo => simp [regIndex]
  | txtlen => simp [hc rfl, regIndex]
  | key n => rw [regIndex_key_toNat]; omega
  | txt n => simp only [hc rfl, regIndex_txt_toNat, true_and]; omega

/-! ## Which step changes an element other than `STATUS` -/

/-- An element that is not in `STATUS` changes only by a reset, by the write of a register, or by a command that
succeeds. -/
theorem step_changes_element {α : Type} {f : Engine → α} (hf : ∀ e status, f { e with status } = f e) {s t : State}
    (h : step s = .next t) (hne : f t.eng ≠ f s.eng) :
    (resetNext s = true ∧ t.eng = Engine.reset) ∨
    (∃ r v, nextInstr s = some (.wr (regIndex r) v) ∧ (needsCodec r = true → s.hasB32 = true) ∧
      t.eng = writeReg s.eng r v) ∨
    (∃ i e', isCommand i = true ∧ nextInstr s = some i ∧ commandRule s.hasB32 i s.eng = .ok e' ∧ f e' ≠ f s.eng) := by
  obtain ⟨_, he | ⟨_, _, he⟩ | ⟨r, v, hn, hc, _, he⟩ | ⟨i, hi, hn, _, he⟩ | hreset⟩ := step_next_cases h
  · exact absurd (congrArg f he) hne
  · exact absurd (he ▸ hf _ _) hne
  · exact .inr (.inl ⟨r, v, hn, hc, he⟩)
  · rcases completed_cases (i != .hotp) (commandRule s.hasB32 i) s.eng with ⟨e', hok, hd⟩ | ⟨x, hd⟩
    · refine .inr (.inr ⟨i, e', hi, hn, hok, fun heq => hne ?_⟩)
      rw [he, hd, ← heq]
      exact hf _ _
    · rw [he, hd] at hne
      exact absurd (hf _ _) hne
  · exact .inl hreset

/-- Settles O40: without the codec no register write and no command reaches the text buffer. -/
theorem stepKeepsCodecParameter : Obligations.StepKeepsCodecParameter := by
  intro s t h
  have hb : t.hasB32 = s.hasB32 := (step_next_cases h).1
  refine ⟨hb, fun hs ht => ?_⟩
  have hoff : s.hasB32 = false := hb ▸ ht
  obtain ⟨htxt, htxtlen⟩ := hs hoff
  by_cases hkeep : (t.eng.txt, t.eng.txtlen) = (s.eng.txt, s.eng.txtlen)
  · obtain ⟨h1, h2⟩ := Prod.mk.inj hkeep
    exact ⟨h1.trans htxt, h2.trans htxtlen⟩
  · rcases step_changes_element (f := fun e => (e.txt, e.txtlen)) (fun _ _ => rfl) h hkeep with
      ⟨_, he⟩ | ⟨r, v, _, hc, he⟩ | ⟨i, e', hi, _, hok, hne⟩
    · rw [he]; exact ⟨rfl, rfl⟩
    · have hr : needsCodec r = false := by
        rw [← Bool.not_eq_true]
        exact fun hr => absurd (hc hr) (by simp [hoff])
      obtain ⟨h1, h2⟩ := writeReg_text s.eng v hr
      rw [he]
      exact ⟨h1.trans htxt, h2.trans htxtlen⟩
    · rw [hoff] at hok
      rcases commandRule_ok_cases hi hok with ⟨_, rfl⟩ | ⟨hon, _⟩ | ⟨hon, _⟩ | ⟨_, hclear⟩
      · exact absurd rfl hne
      · cases hon
      · cases hon
      · cases hclear
        exact absurd rfl hne

/-- Settles O45: of the register writes only those of the two halves, and of the commands only `CLEAR`, write the
counter. -/
theorem counterIsNeverManaged : Obligations.CounterIsNeverManaged := by
  intro s t h hne
  rcases step_changes_element (f := Engine.ctr) (fun _ _ => rfl) h hne with
    ⟨hreset, _⟩ | ⟨r, v, hn, _, he⟩ | ⟨i, e', hi, hn, hok, hctr⟩
  · exact .inl hreset
  · have hv : v.toNat < 2 ^ 32 := v.isLt
    have hctr : s.eng.ctr.toNat < 2 ^ 64 := s.eng.ctr.isLt
    by_cases hhi : r = .ctrHi
    · subst hhi
      refine .inr (.inr (.inl ⟨v, hn, ?_⟩))
      rw [he, writeReg, setCtrHi_eq, BitVec.toNat_ofNat]
      omega
    by_cases hlo : r = .ctrLo
    · subst hlo
      refine .inr (.inr (.inr ⟨v, hn, ?_⟩))
      rw [he, writeReg, setCtrLo_eq, BitVec.toNat_ofNat]
      omega
    rw [he, writeReg_ctr _ _ hhi hlo] at hne
    exact absurd rfl hne
  · rcases commandRule_ok_cases hi hok with ⟨_, rfl⟩ | ⟨_, _, _, rfl⟩ | ⟨_, _, _, _, rfl⟩ | ⟨rfl, _⟩
    · exact absurd rfl hctr
    · exact absurd rfl hctr
    · exact absurd rfl hctr
    · exact .inr (.inl hn)

/-- Settles O46: of the register writes only those of `KEYn`, and of the commands only `B32DEC` and `CLEAR`, write the
secret buffer. -/
theorem secretStaysUntilOverwritten : Obligations.SecretStaysUntilOverwritten := by
  intro s t h hne
  rcases step_changes_element (f := Engine.key) (fun _ _ => rfl) h hne with
    ⟨hreset, _⟩ | ⟨r, v, hn, _, he⟩ | ⟨i, e', hi, hn, hok, hkey⟩
  · exact .inl hreset
  · by_cases hr : ∃ n, r = .key n
    · obtain ⟨n, rfl⟩ := hr
      refine .inr (.inr (.inr ⟨_, v, hn, ?_⟩))
      rw [regIndex_key_toNat]
      omega
    · rw [he, writeReg_key _ _ (not_exists.1 hr)] at hne
      exact absurd rfl hne
  · rcases commandRule_ok_cases hi hok with ⟨_, rfl⟩ | ⟨_, _, _, rfl⟩ | ⟨_, rfl, _⟩ | ⟨rfl, _⟩
    · exact absurd rfl hkey
    · exact absurd rfl hkey
    · exact .inr (.inr (.inl hn))
    · exact .inr (.inl hn)

/-! ## Which step changes a flag of `STATUS` -/

theorem unchanged_flag {b b' : Bool} (h : b' = b) {rises falls : Prop} :
    (b = false → b' = true → rises) ∧ (b = true → b' = false → falls) := by
  subst h
  cases b' <;> simp

/-- Settles O42: before a reset only a dropped write and the write of `STATUS` touch `LOCKERR`. -/
theorem lockErrChangesOnlyByDropAndClear : Obligations.LockErrChangesOnlyByDropAndClear := by
  intro s t h
  obtain ⟨_, he | ⟨hb, ⟨idx, v, hn, r, hr, hl⟩, he⟩ | ⟨r, v, hn, _, _, he⟩ | ⟨i, _, _, _, he⟩ | ⟨hreset, he⟩⟩ :=
    step_next_cases h
  · exact unchanged_flag (by rw [he])
  · have hset : t.eng.status.lockerr = true := by rw [he]; rfl
    exact ⟨fun _ _ => ⟨hb, idx, v, hn, lockableIndex_of_lockable hr hl⟩, fun _ h0 => by simp [hset] at h0⟩
  · by_cases hr : r = .status
    · subst hr
      have hw1c : t.eng.status.lockerr = (s.eng.status.lockerr && !v.getLsbD 3) := by rw [he]; rfl
      exact ⟨fun h0 h1 => by simp [hw1c, h0] at h1, fun h1 h0 => .inr ⟨v, hn, by simpa [hw1c, h1] using h0⟩⟩
    · exact unchanged_flag (by rw [he, writeReg_lockerr _ _ hr])
  · exact unchanged_flag (by rw [he, completed_lockerr])
  · have hclear : t.eng.status.lockerr = false := by rw [he]; rfl
    exact ⟨fun _ h1 => by simp [hclear] at h1, fun _ _ => .inl hreset⟩

/-- Settles O43: `RVALID` is written by a successful `HOTP`, by `CLEAR`, by a failed `HOTP` and by a reset. -/
theorem rvalidChangesOnlyByHotpAndClear : Obligations.RvalidChangesOnlyByHotpAndClear := by
  intro s t h
  obtain ⟨_, he | ⟨_, _, he⟩ | ⟨r, v, _, _, _, he⟩ | ⟨i, hi, hn, _, he⟩ | ⟨hreset, he⟩⟩ := step_next_cases h
  · exact unchanged_flag (by rw [he])
  · exact unchanged_flag (by rw [he, statusLockErr_rvalid])
  · exact unchanged_flag (by rw [he, writeReg_rvalid])
  · rcases completed_cases (i != .hotp) (commandRule s.hasB32 i) s.eng with ⟨e', hok, hd⟩ | ⟨x, hd⟩
    · rw [hd] at he
      rcases commandRule_ok_cases hi hok with ⟨rfl, rfl⟩ | ⟨_, _, _, rfl⟩ | ⟨_, _, _, _, rfl⟩ | ⟨rfl, hclear⟩
      · have hset : t.eng.status.rvalid = true := by rw [he]; rfl
        exact ⟨fun _ _ => ⟨hn, by rw [he]; rfl⟩, fun _ h0 => by simp [hset] at h0⟩
      · exact unchanged_flag (by rw [he]; rfl)
      · exact unchanged_flag (by rw [he]; rfl)
      · have hunset : t.eng.status.rvalid = false := by cases hclear; rw [he]; rfl
        exact ⟨fun _ h1 => by simp [hunset] at h1, fun _ _ => .inr (.inl hn)⟩
    · have hrvalid : t.eng.status.rvalid = (i != .hotp && s.eng.status.rvalid) := by rw [he, hd]; rfl
      by_cases hhotp : i = .hotp
      · subst hhotp
        have herr : t.eng.status.errcode ≠ 0 := by rw [he, hd]; exact errCode_ne x
        exact ⟨fun _ h1 => by simp [hrvalid] at h1, fun _ _ => .inr (.inr ⟨hn, herr⟩)⟩
      · exact unchanged_flag (by simp [hrvalid, hhotp])
  · have hunset : t.eng.status.rvalid = false := by rw [he]; rfl
    exact ⟨fun _ h1 => by simp [hunset] at h1, fun _ _ => .inl hreset⟩

/-! ## The hidden latch -/

/-- Two engines that differ at most in the latch, and not in it while a command runs (10_state.md rule R26). -/
def SameButLatch (e e' : Engine) : Prop :=
  e' = { e with cmdLatch := e'.cmdLatch } ∧ (e.status.busy = true → e'.cmdLatch = e.cmdLatch)

theorem sameButLatch_of_idle {e : Engine} (w : Word) (hb : e.status.busy = false) :
    SameButLatch e { e with cmdLatch := w } :=
  ⟨rfl, fun h => by simp [hb] at h⟩

theorem SameButLatch.irq_eq {e e' : Engine} (h : SameButLatch e e') : irq e' = irq e := by
  rw [h.1]; rfl

theorem readIndex_latch (hasB32 : Bool) (e : Engine) (w : Word) (idx : Index) :
    readIndex hasB32 { e with cmdLatch := w } idx = readIndex hasB32 e idx := by
  unfold readIndex
  cases regAt hasB32 idx with
  | none => rfl
  | some r => cases r <;> rfl

/-- The accept overwrites the latch; no other write of an idle engine reads it or makes it busy. -/
theorem writeReg_sameButLatch {e : Engine} (r : Reg) (v w : Word) (hb : e.status.busy = false) :
    SameButLatch (writeReg e r v) (writeReg { e with cmdLatch := w } r v) := by
  cases r with
  | cmd => exact ⟨rfl, fun _ => rfl⟩
  | _ => exact sameButLatch_of_idle w hb

theorem writeIndex_sameButLatch (hasB32 : Bool) {e : Engine} (idx : Index) (v w : Word) (hb : e.status.busy = false) :
    SameButLatch (writeIndex hasB32 e idx v) (writeIndex hasB32 { e with cmdLatch := w } idx v) := by
  unfold writeIndex
  cases regAt hasB32 idx with
  | none => exact sameButLatch_of_idle w hb
  | some r =>
    simp only [hb, Bool.and_false]
    exact writeReg_sameButLatch r v w hb

theorem decodeTransaction_cases (ht : Transaction) :
    (∃ idx data, decodeTransaction ht = .rd idx data) ∨ (∃ idx v, decodeTransaction ht = .wr idx v) := by
  rw [decodeTransaction]
  split
  · exact .inr ⟨_, _, rfl⟩
  · exact .inl ⟨_, _, rfl⟩

/-- Two idle engines that differ in the latch alone take the same step. -/
theorem step_sameButLatch {s : State} (w : Word) (hb : s.eng.status.busy = false) :
    ∃ t eng', step s = .next t ∧
      step { s with eng := { s.eng with cmdLatch := w } } = .next { t with eng := eng' } ∧
      SameButLatch t.eng eng' := by
  obtain ⟨hasB32, e, events, rsp⟩ := s
  cases events with
  | nil => exact ⟨_, _, engineStep_idle hb, engineStep_idle hb, sameButLatch_of_idle w hb⟩
  | cons ev rest =>
    cases ev with
    | completion => exact ⟨_, _, engineStep_idle hb, engineStep_idle hb, sameButLatch_of_idle w hb⟩
    | reset p => exact ⟨_, _, rfl, rfl, sameButLatch_of_idle _ rfl⟩
    | request ht =>
      rw [step_request rfl, step_request rfl]
      rcases decodeTransaction_cases ht with ⟨idx, data, hd⟩ | ⟨idx, v, hd⟩
      · rw [hd]
        refine ⟨_, _, rfl, ?_, sameButLatch_of_idle w hb⟩
        simp only [exec, execRd, readIndex_latch]
      · rw [hd]
        exact ⟨_, _, rfl, rfl, writeIndex_sameButLatch hasB32 idx v w hb⟩

/-- Settles O48: idle engines that differ in the latch alone step alike, and no read looks at the latch. -/
theorem idleLatchIsInvisible : Obligations.IdleLatchIsInvisible := by
  refine ⟨fun s w hb => ?_, fun s w idx data => ⟨_, _, rfl, rfl, ?_⟩⟩
  · obtain ⟨t, eng', ht, hu, hsame⟩ := step_sameButLatch w hb
    exact ⟨t, _, ht, hu, rfl, rfl, rfl, hsame.1, hsame.irq_eq, hsame.2⟩
  · exact congrArg some (readIndex_latch s.hasB32 s.eng w idx)

end Sys2Proof.Machine
end

section
/-! PROOFS. The statements of 20_memory.md: the access classes of the register map, reads without a side effect, and
the order of the steps inside one clock cycle. -/

open Sys2Proof.Spec

namespace Sys2Proof.Machine

/-! ## The host transactions -/

theorem exec_rd (idx : Index) (data : Word) (s : State) :
    exec (.rd idx data) s = .next { s with rsp := some (readIndex s.hasB32 s.eng idx) } := rfl

theorem exec_wr (idx : Index) (v : Word) (s : State) :
    exec (.wr idx v) s = .next { s with eng := writeIndex s.hasB32 s.eng idx v, rsp := some 0 } := rfl

theorem decodeTransaction_of_read {ht : Transaction} (h : ht.getLsbD 39 = false) :
    decodeTransaction ht = .rd (ht.extractLsb' 32 7) (ht.extractLsb' 0 32) := by
  rw [decodeTransaction, h]
  rfl

theorem decodeTransaction_encodeTransaction (write : Bool) (idx : Index) (data : Word) :
    decodeTransaction (encodeTransaction write idx data) = if write then .wr idx data else .rd idx data := by
  rw [decodeTransaction, encodeTransaction_write, encodeTransaction_index, encodeTransaction_data]

/-! ## The access classes of the register map -/

theorem regIndex_digest_toNat (n : Fin 8) : (regIndex (.digest n)).toNat = 0x10 + n.val := by
  simp only [regIndex, BitVec.toNat_ofNat]
  omega

theorem regAt_status (hasB32 : Bool) : regAt hasB32 0x01 = some .status :=
  regAt_regIndex hasB32 .status nofun

/-- Outside the locked set and `STATUS` no register is writable (20_memory.md rule R66). -/
theorem writeReg_readOnly (e : Engine) {r : Reg} (v : Word) (hl : lockable r = false) (hr : r ≠ .status) :
    writeReg e r v = e := by
  cases r with
  | status => exact absurd rfl hr
  | cmd | cfg | keylen | txtlen | ctrHi | ctrLo | key | txt => simp [lockable] at hl
  | id | code | trunc | codeStr0 | codeStr1 | digest => rfl

/-- No mapped register stands at an index of 20_memory.md rule R65. -/
theorem regAt_of_unmappedIndex {hasB32 : Bool} {idx : Index} (h : unmappedIndex hasB32 idx.toNat) :
    regAt hasB32 idx = none := by
  cases hr : regAt hasB32 idx with
  | none => rfl
  | some r =>
    exfalso
    obtain ⟨rfl, hc⟩ := regIndex_of_regAt hr
    unfold unmappedIndex at h
    cases r with
    | cmd | status | cfg | id | keylen | ctrHi | ctrLo | code | trunc | codeStr0 | codeStr1 => simp [regIndex] at h
    | txtlen => simp [hc rfl, regIndex] at h
    | digest n => rw [regIndex_digest_toNat] at h; omega
    | key n => rw [regIndex_key_toNat] at h; omega
    | txt n => simp only [hc rfl, regIndex_txt_toNat, Bool.true_eq_false, false_and, or_false] at h; omega

/-- The two classes whose writes are ignored are apart from the lockable indices and from `STATUS`. -/
theorem not_lockableIndex_of_ignored {hasB32 : Bool} {i : Nat} (h : unmappedIndex hasB32 i ∨ readOnlyIndex i) :
    ¬ lockableIndex hasB32 i ∧ i ≠ 0x01 := by
  unfold unmappedIndex readOnlyIndex at h
  unfold lockableIndex
  cases hasB32 with
  | false | true =>
    simp only [reduceCtorEq, true_and, false_and, or_false] at h ⊢
    omega

/-- The write of an index that is neither `STATUS` nor lockable is ignored, busy or not (20_memory.md rules R65 and
R66). -/
theorem writeIndex_ignored {hasB32 : Bool} (e : Engine) {idx : Index} (v : Word)
    (h : ¬ lockableIndex hasB32 idx.toNat ∧ idx.toNat ≠ 0x01) : writeIndex hasB32 e idx v = e := by
  obtain ⟨hlock, hstatus⟩ := h
  rcases writeIndex_cases hasB32 e idx v with ⟨_, hw⟩ | ⟨r, hr, hl, _⟩ | ⟨r, hr, _, hw⟩
  · exact hw
  · exact absurd (lockableIndex_of_lockable hr hl) hlock
  · have hl : lockable r = false := by
      rw [← Bool.not_eq_true]
      exact fun hl => hlock (lockableIndex_of_lockable hr hl)
    have hne : r ≠ .status := by
      rintro rfl
      exact hstatus (congrArg BitVec.toNat (regIndex_of_regAt hr).1).symm
    rw [hw, writeReg_readOnly e v hl hne]

theorem readIndex_unmapped {hasB32 : Bool} (e : Engine) {idx : Index} (h : unmappedIndex hasB32 idx.toNat) :
    readIndex hasB32 e idx = 0 := by
  rw [readIndex, regAt_of_unmappedIndex h]

/-- Settles O8: the write comes to no register that a write changes, and the read of an unmapped index to none at
all. -/
theorem unmappedAndReadOnlyIgnoreWrites : Obligations.UnmappedAndReadOnlyIgnoreWrites := by
  refine fun idx v s => ⟨fun h => ?write, fun h => ?read⟩
  case write => rw [exec_wr, writeIndex_ignored s.eng v (not_lockableIndex_of_ignored h)]
  case read => rw [exec_rd, readIndex_unmapped s.eng h]

/-! ## Reads without a side effect -/

theorem step_read {s : State} {ht : Transaction} {rest : List Event} (hread : ht.getLsbD 39 = false)
    (he : s.events = .request ht :: rest) : ∃ answer, step s = .next { s with events := rest, rsp := answer } := by
  rw [step_request he, decodeTransaction_of_read hread, exec_rd]
  exact ⟨_, rfl⟩

/-- A run of reads uses up its part of the schedule and leaves an answer on the port, and does nothing else. -/
theorem stepN_reads {requests : List Transaction} {rest : List Event}
    (hread : ∀ ht ∈ requests, ht.getLsbD 39 = false) {s : State} (he : s.events = requests.map .request ++ rest) :
    ∃ answer, stepN requests.length s = .next { s with events := rest, rsp := answer } := by
  induction requests generalizing s with
  | nil => exact ⟨s.rsp, by rw [← show s.events = rest from he]; rfl⟩
  | cons ht requests ih =>
    obtain ⟨hhead, htail⟩ := List.forall_mem_cons.1 hread
    obtain ⟨answer, hstep⟩ := step_read hhead he
    rw [List.length_cons, stepN, hstep]
    exact ih htail rfl

/-- Settles O11: a read depends on the engine and the parameter only, and no read in the run changes them. -/
theorem readsHaveNoSideEffect : Obligations.ReadsHaveNoSideEffect := by
  intro s requests rest hread he
  obtain ⟨answer, hrun⟩ := stepN_reads hread he
  exact ⟨_, hrun, rfl, rfl, rfl, fun idx data => ⟨_, _, exec_rd idx data s, exec_rd idx data _, rfl⟩⟩

/-! ## A transaction on a busy engine -/

theorem writeReg_cmdLatch (e : Engine) {r : Reg} (v : Word) (hr : r ≠ .cmd) :
    (writeReg e r v).cmdLatch = e.cmdLatch := by
  cases r with
  | cmd => exact absurd rfl hr
  | _ => rfl

/-- No write ends a running command or replaces it (41_command_sequencer.md rule R120, 40_host_access.md rule R105). -/
theorem writeIndex_keeps_command (hasB32 : Bool) {e : Engine} (idx : Index) (v : Word) (hb : e.status.busy = true) :
    (writeIndex hasB32 e idx v).status.busy = true ∧ (writeIndex hasB32 e idx v).cmdLatch = e.cmdLatch := by
  rcases writeIndex_cases hasB32 e idx v with ⟨_, hw⟩ | ⟨_, _, _, _, hw⟩ | ⟨r, _, hidle, hw⟩
  · rw [hw]; exact ⟨hb, rfl⟩
  · rw [hw]; exact ⟨hb, rfl⟩
  · have hne : r ≠ .cmd := by
      rintro rfl
      simp [hidle rfl] at hb
    rw [hw, busy_writeReg e r v hne, writeReg_cmdLatch e v hne]
    exact ⟨hb, rfl⟩

theorem regAt_of_toNat {hasB32 : Bool} {idx : Index} (r : Reg) (hc : needsCodec r = true → hasB32 = true)
    (h : idx.toNat = (regIndex r).toNat) : regAt hasB32 idx = some r := by
  rw [BitVec.eq_of_toNat_eq h, regAt_regIndex hasB32 r hc]

/-- At the indices of 40_host_access.md rule R102 stand lockable registers. -/
theorem regAt_of_lockableIndex {hasB32 : Bool} {idx : Index} (h : lockableIndex hasB32 idx.toNat) :
    ∃ r, regAt hasB32 idx = some r ∧ lockable r = true := by
  rcases h with h | h | h | h | h | ⟨hlo, hhi⟩ | ⟨hc, h | ⟨hlo, hhi⟩⟩
  · exact ⟨.cmd, regAt_of_toNat _ nofun h, rfl⟩
  · exact ⟨.cfg, regAt_of_toNat _ nofun h, rfl⟩
  · exact ⟨.keylen, regAt_of_toNat _ nofun h, rfl⟩
  · exact ⟨.ctrHi, regAt_of_toNat _ nofun h, rfl⟩
  · exact ⟨.ctrLo, regAt_of_toNat _ nofun h, rfl⟩
  · exact ⟨.key ⟨idx.toNat - 0x20, by omega⟩,
      regAt_of_toNat _ nofun (by simp only [regIndex_key_toNat]; omega), rfl⟩
  · exact ⟨.txtlen, regAt_of_toNat _ (fun _ => hc) h, rfl⟩
  · exact ⟨.txt ⟨idx.toNat - 0x40, by omega⟩,
      regAt_of_toNat _ (fun _ => hc) (by simp only [regIndex_txt_toNat]; omega), rfl⟩

/-- The drop of 40_host_access.md rule R105. -/
theorem writeIndex_dropped {hasB32 : Bool} {e : Engine} {idx : Index} (v : Word) (hb : e.status.busy = true)
    (h : lockableIndex hasB32 idx.toNat) :
    writeIndex hasB32 e idx v = { e with status := statusLockErr e.status } := by
  obtain ⟨r, hr, hl⟩ := regAt_of_lockableIndex h
  simp [writeIndex, hr, hl, hb]

theorem writeIndex_status (hasB32 : Bool) (e : Engine) (v : Word) :
    writeIndex hasB32 e 0x01 v = { e with status := statusW1C e.status v } := by
  rw [writeIndex, regAt_status]; rfl

theorem readIndex_status (hasB32 : Bool) (e : Engine) : readIndex hasB32 e 0x01 = statusWord e.status := by
  rw [readIndex, regAt_status]
  simp [readableWhileBusy, readReg]

theorem statusWord_getLsbD_zero (s : Status) : (statusWord s).getLsbD 0 = s.busy := by
  rw [statusWord, BitVec.getLsbD_append]
  simp

/-! ## One clock cycle -/

theorem cycleEvents_reset {p : PortIn} (hrst : p.rst = true) (completes : Bool) :
    cycleEvents p completes = [.reset (presented p)] := by
  simp [cycleEvents, hrst]

theorem cycleEvents_request {p : PortIn} (hrst : p.rst = false) (hvalid : p.reqValid = true) (completes : Bool) :
    cycleEvents p completes =
      .request (encodeTransaction p.reqWrite p.reqAddr p.reqWdata) :: (if completes then [.completion] else []) := by
  simp [cycleEvents, presented, hrst, hvalid]

theorem cycleEvents_noRequest {p : PortIn} (hrst : p.rst = false) (hvalid : p.reqValid = false) (completes : Bool) :
    cycleEvents p completes = if completes then [.completion] else [] := by
  simp [cycleEvents, presented, hrst, hvalid]

/-- The first step of a cycle with a transaction and no reset is that transaction. -/
theorem step_requestCycle {p : PortIn} (s : State) (rest : List Event) (hrst : p.rst = false)
    (hvalid : p.reqValid = true) (completes : Bool) :
    step { s with events := cycleEvents p completes ++ rest } =
      exec (if p.reqWrite then .wr p.reqAddr p.reqWdata else .rd p.reqAddr p.reqWdata)
        { s with events := (if completes then [.completion] else []) ++ rest } := by
  rw [cycleEvents_request hrst hvalid, List.cons_append, step_request rfl, decodeTransaction_encodeTransaction]

theorem step_completion_busy {s : State} {rest : List Event} (he : s.events = .completion :: rest)
    (hb : s.eng.status.busy = true) :
    step s = exec (decodeCommand s.hasB32 s.eng.cmdLatch) { s with events := rest } :=
  (step_engineTurn (.inl he)).trans (engineStep_busy hb)

/-- What every completion leaves in `STATUS` (41_command_sequencer.md rule R121). -/
theorem exec_decodeCommand_flags (hasB32 : Bool) (w : Word) (s : State) :
    ∃ u, exec (decodeCommand hasB32 w) s = .next u ∧ u.eng.status.busy = false ∧ u.eng.status.done = true ∧
      u.eng.status.lockerr = s.eng.status.lockerr ∧ u.events = s.events :=
  ⟨_, exec_command _ s (decodeCommand_isCommand hasB32 w), completed_busy _ _ _, completed_done _ _ _,
    completed_lockerr _ _ _ _, rfl⟩

/-- What a transaction does on a busy engine: the command keeps running, a read of `STATUS` sees it, a write of 1 to
`DONE` clears it, and a write of a locked register is dropped (40_host_access.md rules R100, R103 and R105). -/
theorem exec_transaction_busy (write : Bool) (idx : Index) (data : Word) {s : State}
    (hb : s.eng.status.busy = true) :
    ∃ t, exec (if write then .wr idx data else .rd idx data) s = .next t ∧
      t.eng.status.busy = true ∧ t.eng.cmdLatch = s.eng.cmdLatch ∧ t.hasB32 = s.hasB32 ∧ t.events = s.events ∧
      (write = false → idx = 0x01 → ∃ v, t.rsp = some v ∧ v.getLsbD 0 = true) ∧
      (write = true → idx = 0x01 → data.getLsbD 1 = true → t.eng.status.done = false) ∧
      (write = true → lockableIndex s.hasB32 idx.toNat → t.eng.status.lockerr = true) := by
  cases write with
  | false =>
    refine ⟨_, exec_rd idx data s, hb, rfl, rfl, rfl, fun _ hidx => ⟨_, rfl, ?_⟩, nofun, nofun⟩
    rw [hidx, readIndex_status, statusWord_getLsbD_zero, hb]
  | true =>
    obtain ⟨hbusy, hlatch⟩ := writeIndex_keeps_command s.hasB32 idx data hb
    refine ⟨_, exec_wr idx data s, hbusy, hlatch, rfl, rfl, nofun, fun _ hidx hv => ?clear, fun _ hl => ?drop⟩
    case clear =>
      simp only [hidx, writeIndex_status, statusW1C_done, hv, Bool.not_true, Bool.and_false]
    case drop =>
      simp only [writeIndex_dropped data hb hl, statusLockErr_lockerr]

/-- Settles O56: the reset cycle, the transaction and then the completion on a busy engine, and the cycles with one of
the two or none. -/
theorem cycleOrdersTransactionFirst : Obligations.CycleOrdersTransactionFirst := by
  intro p s rest
  refine ⟨fun hrst completes => ?reset, fun hrst hvalid hb => ?both,
    fun hrst hvalid => step_requestCycle s rest hrst hvalid false, fun hrst hvalid hb => ?completion,
    fun hrst hvalid => cycleEvents_noRequest hrst hvalid false⟩
  case reset =>
    rw [cycleEvents_reset hrst]
    exact ⟨_, rfl, rfl, rfl⟩
  case both =>
    obtain ⟨t, hexec, hbusy, hlatch, hcodec, hevents, hread, hclear, hdrop⟩ :=
      exec_transaction_busy p.reqWrite p.reqAddr p.reqWdata (s := { s with events := .completion :: rest }) hb
    obtain ⟨u, hcomplete, hidle, hdone, hlockerr, hrest⟩ :=
      exec_decodeCommand_flags s.hasB32 s.eng.cmdLatch { t with events := rest }
    have hfirst := (step_requestCycle s rest hrst hvalid true).trans hexec
    have hcommand : decodeCommand t.hasB32 t.eng.cmdLatch = decodeCommand s.hasB32 s.eng.cmdLatch := by
      rw [hcodec, hlatch]
    have hsecond : step t = .next u := by
      rw [step_completion_busy hevents hbusy, hcommand, hcomplete]
    exact ⟨t, u, hfirst, hexec, hbusy, hlatch, hcodec, hread, hclear, hdrop, hsecond, hcomplete, hidle, hdone,
      hlockerr, hrest⟩
  case completion =>
    rw [cycleEvents_noRequest hrst hvalid]
    exact step_completion_busy rfl hb

end Sys2Proof.Machine
end

section
/-! PROOFS. The statements of 30_encoding.md: the encoder and the decoder of both formats, and the pseudo-instructions
`LDKEY` and `LDCTR` as the writes they stand for. -/

open Sys2Proof.Spec

namespace Sys2Proof.Machine

/-! ## Format `HT` -/

/-- The three fields of 30_encoding.md rule R81 as one number. -/
theorem encodeTransaction_toNat (write : Bool) (idx : Index) (data : Word) :
    (encodeTransaction write idx data).toNat = (0x80 * bit write + idx.toNat) * 2 ^ 32 + data.toNat := by
  rw [encodeTransaction, BitVec.toNat_append, BitVec.toNat_append, ← Nat.shiftLeft_add_eq_or_of_lt data.isLt,
    ← Nat.shiftLeft_add_eq_or_of_lt idx.isLt, Nat.shiftLeft_eq, Nat.shiftLeft_eq, BitVec.toNat_ofBool, bit]
  ring

/-- Settles O51: the fields as one number. -/
theorem transactionTopByte : Obligations.TransactionTopByte := encodeTransaction_toNat

/-- A transaction is nothing but its three fields (30_encoding.md rule R81). -/
theorem encodeTransaction_fields (ht : Transaction) :
    encodeTransaction (ht.getLsbD 39) (ht.extractLsb' 32 7) (ht.extractLsb' 0 32) = ht := by
  have hlt : ht.toNat < 2 ^ 40 := ht.isLt
  have htop : bit (ht.getLsbD 39) = ht.toNat / 2 ^ 39 % 2 := by
    rw [bit, BitVec.getLsbD, Nat.toNat_testBit]
  apply BitVec.eq_of_toNat_eq
  rw [encodeTransaction_toNat, htop, BitVec.extractLsb'_toNat, BitVec.extractLsb'_toNat, Nat.shiftRight_eq_div_pow,
    Nat.shiftRight_eq_div_pow]
  omega

theorem encode_decodeTransaction (ht : Transaction) : encode (decodeTransaction ht) = .ht ht := by
  rw [decodeTransaction]
  split
  case isTrue hw => rw [encode, ← hw, encodeTransaction_fields]
  case isFalse hw => rw [encode, ← Bool.eq_false_of_not_eq_true hw, encodeTransaction_fields]

/-! ## Format `CW` -/

theorem encode_decodeCommand (hasB32 : Bool) (w : Word) : encode (decodeCommand hasB32 w) = .cw w := by
  rw [decodeCommand_eq]
  split_ifs with h1 h2 hb h3 hb h4
  · rw [h1, encode]
  · rw [h2, encode]
  · rfl
  · rw [h3, encode]
  · rfl
  · rw [h4, encode]
  · rfl

/-- The default row of 41_command_sequencer.md rule R122 keeps the word. -/
theorem decodeCommand_of_not_mem_legalWords {hasB32 : Bool} {w : Word} (h : w ∉ legalWords hasB32) :
    decodeCommand hasB32 w = .illegal w := by
  rw [mem_legalWords] at h
  rw [decodeCommand_eq]
  split_ifs with h1 h2 hb h3 hb h4
  · exact absurd (.inl h1) h
  · exact absurd (.inr (.inr ⟨hb, .inl h2⟩)) h
  · rfl
  · exact absurd (.inr (.inr ⟨hb, .inr h3⟩)) h
  · rfl
  · exact absurd (.inr (.inl h4)) h
  · rfl

/-! ## Both formats -/

theorem decode_encode {hasB32 : Bool} {i : Instr} (h : i.wellFormed hasB32 = true) :
    (encode i).decode hasB32 = i := by
  cases i with
  | rd idx data => exact decodeTransaction_encodeTransaction false idx data
  | wr idx data => exact decodeTransaction_encodeTransaction true idx data
  | hotp => exact decodeCommand_eq hasB32 0x00000001
  | b32enc => rw [show hasB32 = true from h]; exact decodeCommand_eq true 0x00000002
  | b32dec => rw [show hasB32 = true from h]; exact decodeCommand_eq true 0x00000003
  | clear => exact decodeCommand_eq hasB32 0x00000004
  | illegal w => exact decodeCommand_of_not_mem_legalWords ((illegal_wellFormed_iff hasB32 w).1 h)

/-- Settles O49: by the instruction's constructors, a transaction by its fields and a command by the words of
30_encoding.md rule R83. -/
theorem decodeOfEncode : Obligations.DecodeOfEncode := fun _ _ h => decode_encode h

/-- Settles O50: each format apart. -/
theorem encodeOfDecode : Obligations.EncodeOfDecode := by
  intro hasB32 x
  cases x with
  | ht bits => exact ⟨decodeTransaction_wellFormed hasB32 bits, encode_decodeTransaction bits⟩
  | cw bits => exact ⟨decodeCommand_wellFormed hasB32 bits, encode_decodeCommand hasB32 bits⟩

/-- Settles O52: eleven given words, each decoded. -/
theorem workedEncodingsDecode : Obligations.WorkedEncodingsDecode := by
  unfold Obligations.WorkedEncodingsDecode
  decide

/-! ## Runs of writes -/

/-- The engine after a sequence of register writes, none of them dropped. -/
def writeRegs (e : Engine) (writes : List (Reg × Word)) : Engine :=
  writes.foldl (fun e w => writeReg e w.1 w.2) e

/-- The transactions of a sequence of register writes. -/
def writeRequests (writes : List (Reg × Word)) : List Transaction := writes.map fun w => wrReg w.1 w.2

theorem writeRegs_cons (e : Engine) (r : Reg) (v : Word) (writes : List (Reg × Word)) :
    writeRegs e ((r, v) :: writes) = writeRegs (writeReg e r v) writes := rfl

/-- The writes of a sequence all take effect on an idle engine, when none of them starts a command. -/
theorem stepN_writeRequests {writes : List (Reg × Word)} {rest : List Event} {s : State}
    (hw : ∀ w ∈ writes, w.1 ≠ .cmd ∧ needsCodec w.1 = false) (hb : s.eng.status.busy = false)
    (he : s.events = (writeRequests writes).map .request ++ rest) :
    stepN (writeRequests writes).length s =
      .next { s with eng := writeRegs s.eng writes, events := rest, rsp := if writes = [] then s.rsp else some 0 } := by
  induction writes generalizing s with
  | nil => rw [← show s.events = rest from he]; rfl
  | cons w writes ih =>
    obtain ⟨⟨hcmd, hcodec⟩, htail⟩ := List.forall_mem_cons.1 hw
    have hstep := step_write_idle he hb (by simp [hcodec])
    have hidle : (writeReg s.eng w.1 w.2).status.busy = false := (busy_writeReg s.eng w.1 w.2 hcmd).trans hb
    simp only [writeRequests, List.map_cons, List.length_cons, stepN]
    rw [hstep]
    refine (ih htail hidle rfl).trans ?_
    simp [writeRegs]

/-! ## `LDCTR` -/

/-- The two halves written in turn make the whole counter (10_state.md rule R23). -/
theorem setCtrLo_setCtrHi (old c : BitVec 64) : setCtrLo (setCtrHi old (ctrHiWord c)) (ctrLoWord c) = c := by
  have hlt : c.toNat < 2 ^ 64 := c.isLt
  apply BitVec.eq_of_toNat_eq
  rw [setCtrLo_eq, ← ctrHi_toNat, ctrHi_setHi, ctrHi_toNat, ctrLo_toNat, BitVec.toNat_ofNat]
  omega

/-- Settles O54: the high half, then the low half. -/
theorem ldCtrLoadsCounter : Obligations.LdCtrLoadsCounter := by
  intro s c rest hb he
  have hw : ∀ w ∈ [(Reg.ctrHi, ctrHiWord c), (Reg.ctrLo, ctrLoWord c)], w.1 ≠ .cmd ∧ needsCodec w.1 = false := by
    simp [needsCodec]
  refine (stepN_writeRequests hw hb he).trans ?_
  simp [writeRegs, writeReg, setCtrLo_setCtrHi]

/-! ## `LDKEY` -/

/-- The word writes of `LDKEY b` up to word `m` (30_encoding.md rule R88). -/
def keyWrites (b : List Byte) (m : Nat) : List (Reg × Word) :=
  (List.range m).map fun j => (.key (Fin.ofNat 16 j), loadWord b j)

/-- The key buffer after the first `m` words of `LDKEY b`: the sequence with its zero fill, then the old bytes. -/
def loadedKey (key : Vector Byte 64) (b : List Byte) (m : Nat) : Vector Byte 64 :=
  Vector.ofFn fun j => if j.val < 4 * m then b.getD j.val 0 else key[j]

theorem ldKey_eq_some {b : List Byte} {requests : List Transaction} (h : ldKey b = some requests) :
    b.length ≤ 64 ∧
      requests = writeRequests ((.keylen, BitVec.ofNat 32 b.length) :: keyWrites b ((b.length + 3) / 4)) := by
  obtain ⟨hlen, hreq⟩ := Option.ite_none_right_eq_some.1 h
  refine ⟨hlen, ?_⟩
  rw [← Option.some.inj hreq, writeRequests, keyWrites, List.map_cons, List.map_map]
  rfl

/-- The fill of a load is the default of a byte past the end. -/
theorem getD_append_zeros (b : List Byte) (k j : Nat) : (b ++ List.replicate k 0).getD j 0 = b.getD j 0 := by
  rcases Nat.lt_or_ge j b.length with h | h
  · exact List.getD_append _ _ _ _ h
  · rw [List.getD_append_right _ _ _ _ h, List.getD_eq_default _ _ h,
      List.getD_eq_getElem?_getD, List.getElem?_getD_replicate_default_eq]

/-- The bytes of a loaded word are those of the sequence. -/
theorem be32_loadWord (b : List Byte) (j : Nat) :
    be32 (loadWord b j) =
      [b.getD (4 * j) 0, b.getD (4 * j + 1) 0, b.getD (4 * j + 2) 0, b.getD (4 * j + 3) 0] := by
  simp only [loadWord, be32_wordBE, getD_append_zeros]

/-- The write of a word whose bytes come from a sequence, byte by byte. -/
theorem setWordAt_loadWord_getElem {k : Nat} (buf : Vector Byte k) (b : List Byte) (n : Nat) (h : 4 * n + 3 < k)
    {j : Nat} (hj : j < k) :
    (setWordAt buf n h (loadWord b n))[j] = if j / 4 = n then b.getD j 0 else buf[j] := by
  have hbytes := be32_loadWord b n
  simp only [be32, List.cons.injEq, and_true] at hbytes
  obtain ⟨h0, h1, h2, h3⟩ := hbytes
  rw [setWordAt_getElem, h0, h1, h2, h3]
  by_cases hword : j / 4 = n
  · rw [if_pos hword]
    obtain rfl | rfl | rfl | rfl : j = 4 * n ∨ j = 4 * n + 1 ∨ j = 4 * n + 2 ∨ j = 4 * n + 3 := by omega
    all_goals simp
  · rw [if_neg hword, if_neg (by omega), if_neg (by omega), if_neg (by omega), if_neg (by omega)]

theorem setWordAt_loadedKey (key : Vector Byte 64) (b : List Byte) {m : Nat} (hm : m < 16) :
    setWordAt (loadedKey key b m) m (by omega) (loadWord b m) = loadedKey key b (m + 1) := by
  apply Vector.ext
  intro j hj
  rw [setWordAt_loadWord_getElem _ _ _ _ hj]
  simp only [loadedKey, Vector.getElem_ofFn]
  by_cases hword : j / 4 = m
  · rw [if_pos hword, if_pos (by omega)]
  · have hiff : j < 4 * m ↔ j < 4 * (m + 1) := by omega
    simp only [hword, hiff, if_false]

theorem writeReg_key_ofNat (e : Engine) {m : Nat} (hm : m < 16) (v : Word) :
    writeReg e (.key (Fin.ofNat 16 m)) v = { e with key := setWordAt e.key m (by omega) v } := by
  simp [writeReg, Nat.mod_eq_of_lt hm]

/-- The word writes load the key buffer word by word and write nothing else. -/
theorem writeRegs_keyWrites (e : Engine) (b : List Byte) {m : Nat} (hm : m ≤ 16) :
    writeRegs e (keyWrites b m) = { e with key := loadedKey e.key b m } := by
  induction m with
  | zero => simp [writeRegs, keyWrites, loadedKey]
  | succ m ih =>
    have hsplit : writeRegs e (keyWrites b (m + 1)) =
        writeReg (writeRegs e (keyWrites b m)) (.key (Fin.ofNat 16 m)) (loadWord b m) := by
      simp [writeRegs, keyWrites, List.range_succ]
    rw [hsplit, ih (by omega), writeReg_key_ofNat _ hm, setWordAt_loadedKey e.key b hm]

theorem mem_keyWrites_reg {b : List Byte} {m : Nat} {w : Reg × Word} (h : w ∈ keyWrites b m) :
    w.1 ≠ .cmd ∧ needsCodec w.1 = false := by
  obtain ⟨j, -, rfl⟩ := List.mem_map.1 h
  exact ⟨nofun, rfl⟩

/-- `ceil(n/4)` words hold a sequence of `n` bytes. -/
theorem loadedKey_take (key : Vector Byte 64) {b : List Byte} (hlen : b.length ≤ 64) :
    (loadedKey key b ((b.length + 3) / 4)).toList.take b.length = b := by
  apply List.ext_getElem
  · simp [hlen]
  · intro j _ hj
    have hword : j < 4 * ((b.length + 3) / 4) := by omega
    simp [loadedKey, hword, hj]

/-- Settles O53: the length, then the words by `writeRegs_keyWrites`. -/
theorem ldKeyLoadsSecret : Obligations.LdKeyLoadsSecret := by
  intro s b requests rest hload hb he
  obtain ⟨hlen, rfl⟩ := ldKey_eq_some hload
  have hkeylenReg : Reg.keylen ≠ .cmd ∧ needsCodec .keylen = false := ⟨nofun, rfl⟩
  have hrun := stepN_writeRequests (List.forall_mem_cons.2 ⟨hkeylenReg, fun _ => mem_keyWrites_reg⟩) hb he
  rw [writeRegs_cons, writeRegs_keyWrites _ b (by omega)] at hrun
  have hkeylen : ((BitVec.ofNat 32 b.length).extractLsb' 0 7).toNat = b.length := by
    simp only [BitVec.extractLsb'_toNat, BitVec.toNat_ofNat, Nat.shiftRight_zero]
    omega
  refine ⟨_, hrun, ?secret, hkeylen, fun j hj => ?above, rfl, rfl⟩
  case secret =>
    simp only [secret, writeReg, hkeylen]
    exact loadedKey_take s.eng.key hlen
  case above => simp [loadedKey, writeReg, Nat.not_lt.2 hj]

end Sys2Proof.Machine
end

section
/-! PROOFS. The statements of 40_host_access.md: the access classes of the register map, then what a read returns and
what a write changes, in the numbers of the pseudocode. -/

open Sys2Proof.Spec

namespace Sys2Proof.Machine

/-! ## The register map -/

theorem regAt_of_readOnlyIndex (hasB32 : Bool) {idx : Index} (h : readOnlyIndex idx.toNat) :
    ∃ r, regAt hasB32 idx = some r := by
  rcases h with h | ⟨hlo, hhi⟩ | ⟨hlo, hhi⟩
  · exact ⟨.id, regAt_of_toNat _ nofun h⟩
  · obtain h | h | h | h : idx.toNat = 0x08 ∨ idx.toNat = 0x09 ∨ idx.toNat = 0x0A ∨ idx.toNat = 0x0B := by omega
    · exact ⟨.code, regAt_of_toNat _ nofun h⟩
    · exact ⟨.trunc, regAt_of_toNat _ nofun h⟩
    · exact ⟨.codeStr0, regAt_of_toNat _ nofun h⟩
    · exact ⟨.codeStr1, regAt_of_toNat _ nofun h⟩
  · exact ⟨.digest ⟨idx.toNat - 0x10, by omega⟩,
      regAt_of_toNat _ nofun (by simp only [regIndex_digest_toNat]; omega)⟩

/-- The four access classes of 20_memory.md rule R61 cover every index. -/
theorem access_class (hasB32 : Bool) (idx : Index) :
    idx = 0x01 ∨ lockableIndex hasB32 idx.toNat ∨ readOnlyIndex idx.toNat ∨ unmappedIndex hasB32 idx.toNat := by
  have hlt : idx.toNat < 128 := idx.isLt
  have hstatus : idx = 0x01 ↔ idx.toNat = 0x01 := BitVec.toNat_inj.symm
  rw [hstatus]
  unfold lockableIndex readOnlyIndex unmappedIndex
  cases hasB32 with
  | false | true =>
    simp only [reduceCtorEq, true_and, false_and, or_false]
    omega

/-- Outside the locked set none of the conditions of 40_host_access.md rules R100 and R101 on a lockable index holds. -/
theorem not_lockableIndex_iff {hasB32 : Bool} {i : Nat} :
    ¬ lockableIndex hasB32 i ↔
      i ≠ 0x00 ∧ i ≠ 0x02 ∧ i ≠ 0x04 ∧ i ≠ 0x06 ∧ i ≠ 0x07 ∧ ¬ (0x20 ≤ i ∧ i ≤ 0x2F) ∧
        ¬ (i = 0x05 ∧ hasB32 = true) ∧ ¬ (0x40 ≤ i ∧ i ≤ 0x59 ∧ hasB32 = true) := by
  unfold lockableIndex
  tauto

theorem not_unmappedIndex_of_readOnlyIndex {hasB32 : Bool} {i : Nat} (h : readOnlyIndex i) :
    ¬ unmappedIndex hasB32 i := by
  unfold readOnlyIndex at h
  unfold unmappedIndex
  omega

theorem regAt_eq_none_iff (hasB32 : Bool) (idx : Index) :
    regAt hasB32 idx = none ↔ unmappedIndex hasB32 idx.toNat := by
  refine ⟨fun hnone => ?_, regAt_of_unmappedIndex⟩
  rcases access_class hasB32 idx with rfl | h | h | h
  · rw [regAt_status] at hnone
    cases hnone
  · obtain ⟨r, hr, _⟩ := regAt_of_lockableIndex h
    rw [hr] at hnone
    cases hnone
  · obtain ⟨r, hr⟩ := regAt_of_readOnlyIndex hasB32 h
    rw [hr] at hnone
    cases hnone
  · exact h

/-- The locked set of the model is the one of 40_host_access.md rule R102. -/
theorem lockable_iff_lockableIndex {hasB32 : Bool} {idx : Index} {r : Reg} (hr : regAt hasB32 idx = some r) :
    lockable r = true ↔ lockableIndex hasB32 idx.toNat := by
  refine ⟨lockableIndex_of_lockable hr, fun h => ?_⟩
  obtain ⟨r', hr', hl⟩ := regAt_of_lockableIndex h
  rwa [Option.some.inj (hr.symm.trans hr')]

/-- Settles O9: the classes cover the indices and are apart, and the model's register map has the same ones. -/
theorem registerMapPartition : Obligations.RegisterMapPartition := by
  intro hasB32 idx
  have hreadOnly (h : readOnlyIndex idx.toNat) := not_lockableIndex_of_ignored (hasB32 := hasB32) (.inr h)
  have hunmapped (h : unmappedIndex hasB32 idx.toNat) := not_lockableIndex_of_ignored (.inl h)
  refine ⟨access_class hasB32 idx, fun ⟨hl, hro⟩ => (hreadOnly hro).1 hl, fun ⟨hl, hun⟩ => (hunmapped hun).1 hl,
    fun ⟨hro, hun⟩ => not_unmappedIndex_of_readOnlyIndex hro hun, fun hidx => ?status, ?unmapped,
    fun r hr => ⟨(regIndex_of_regAt hr).1, lockable_iff_lockableIndex hr⟩⟩
  case status =>
    have hone : idx.toNat = 0x01 := congrArg BitVec.toNat hidx
    have hr : regAt hasB32 idx = some .status := hidx ▸ regAt_status hasB32
    exact ⟨(lockable_iff_lockableIndex hr).not.1 Bool.false_ne_true, fun hro => (hreadOnly hro).2 hone,
      fun hun => (hunmapped hun).2 hone⟩
  case unmapped => rw [Option.isNone_iff_eq_none, regAt_eq_none_iff]

/-! ## The value of a read -/

theorem readIndex_of_regAt {hasB32 : Bool} {idx : Index} {r : Reg} (e : Engine) (hr : regAt hasB32 idx = some r) :
    readIndex hasB32 e idx = if e.status.busy && !readableWhileBusy r then 0 else readReg hasB32 e r := by
  rw [readIndex, hr]

theorem idWord_toNat (hasB32 : Bool) : (idWord hasB32).toNat = idValue hasB32 := by
  cases hasB32 with
  | false | true => rfl

/-- The pseudocode of 40_host_access.md rule R100 at the index of a register. -/
theorem rdValue_regIndex {hasB32 : Bool} (e : Engine) (r : Reg) (hc : needsCodec r = true → hasB32 = true) :
    rdValue hasB32 e (regIndex r).toNat =
      if e.status.busy && !readableWhileBusy r then 0 else (readReg hasB32 e r).toNat := by
  cases r with
  | status => simp [rdValue, regIndex, readableWhileBusy, readReg, status_toNat]
  | id => simp [rdValue, regIndex, readableWhileBusy, readReg, idWord_toNat]
  | cmd | code | trunc => simp [rdValue, regIndex, readableWhileBusy, readReg]
  | keylen =>
    have hwidth : (e.keylen.setWidth 32).toNat = e.keylen.toNat := BitVec.toNat_setWidth_of_le (by decide)
    simp only [readReg, hwidth]
    simp [rdValue, regIndex, readableWhileBusy]
  | txtlen =>
    have hwidth : (e.txtlen.setWidth 32).toNat = e.txtlen.toNat := BitVec.toNat_setWidth_of_le (by decide)
    simp only [readReg, hwidth]
    simp [rdValue, regIndex, readableWhileBusy, hc rfl]
  | cfg => simp [rdValue, regIndex, readableWhileBusy, readReg, cfg_toNat]
  | ctrHi => simp [rdValue, regIndex, readableWhileBusy, readReg, ctrHi_toNat]
  | ctrLo => simp [rdValue, regIndex, readableWhileBusy, readReg, ctrLo_toNat]
  | codeStr0 | codeStr1 => simp [rdValue, regIndex, readableWhileBusy, readReg, wordAt_toNat]
  | digest n =>
    have hn : n.val ≤ 7 := by omega
    simp [rdValue, regIndex_digest_toNat, Nat.add_comm 0x10, readableWhileBusy, readReg, hn]
  | key n =>
    have hn : n.val ≤ 15 := by omega
    simp [rdValue, regIndex_key_toNat, Nat.add_comm 0x20, readableWhileBusy, readReg, wordAt_toNat, hn]
  | txt n =>
    have hn : n.val ≤ 25 := by omega
    simp [rdValue, regIndex_txt_toNat, Nat.add_comm 0x40, readableWhileBusy, readReg, wordAt_toNat, hc rfl, hn]

theorem rdValue_unmapped {hasB32 : Bool} (e : Engine) {i : Nat} (h : unmappedIndex hasB32 i) :
    rdValue hasB32 e i = 0 := by
  obtain ⟨hlock, hstatus⟩ := not_lockableIndex_of_ignored (.inl h)
  obtain ⟨hcmd, hcfg, hkeylen, hctrHi, hctrLo, hkey, htxtlen, htxt⟩ := not_lockableIndex_iff.1 hlock
  have hro : ¬ readOnlyIndex i := fun hro => not_unmappedIndex_of_readOnlyIndex hro h
  simp only [readOnlyIndex, not_or] at hro
  obtain ⟨hid, hresults, hdigest⟩ := hro
  obtain ⟨hcode, htrunc, hstr0, hstr1⟩ : i ≠ 0x08 ∧ i ≠ 0x09 ∧ i ≠ 0x0A ∧ i ≠ 0x0B := by omega
  simp only [rdValue, hstatus, hid, hcmd, hcfg, hkeylen, htxtlen, hctrHi, hctrLo, hcode, htrunc, hstr0, hstr1, hdigest,
    hkey, htxt, if_false, ite_self]

/-- The model's read returns the value of the pseudocode of 40_host_access.md rule R100. -/
theorem readIndex_toNat (hasB32 : Bool) (e : Engine) (idx : Index) :
    (readIndex hasB32 e idx).toNat = rdValue hasB32 e idx.toNat := by
  cases hr : regAt hasB32 idx with
  | none =>
    have hun : unmappedIndex hasB32 idx.toNat := (regAt_eq_none_iff hasB32 idx).1 hr
    rw [readIndex_unmapped e hun, rdValue_unmapped e hun]
    rfl
  | some r =>
    obtain ⟨rfl, hc⟩ := regIndex_of_regAt hr
    rw [readIndex_of_regAt e hr, rdValue_regIndex e r hc, apply_ite BitVec.toNat]
    rfl

/-- A transaction is decoded by the number its three fields make (30_encoding.md rule R81). -/
theorem decodeTransaction_of_toNat (write : Bool) (idx : Index) (data : Word) {ht : Transaction}
    (h : ht.toNat = (0x80 * bit write + idx.toNat) * 2 ^ 32 + data.toNat) :
    decodeTransaction ht = if write then .wr idx data else .rd idx data := by
  rw [← encodeTransaction_toNat] at h
  rw [BitVec.eq_of_toNat_eq h, decodeTransaction_encodeTransaction]

/-- Settles O4: the decoded fields, and the value by `readIndex_toNat`. -/
theorem rdReturnsRegisterValue : Obligations.RdReturnsRegisterValue := by
  refine fun idx data s => ⟨fun ht h => decodeTransaction_of_toNat false idx data ?decode, ?value⟩
  case decode => rw [h, bit, Bool.toNat_false]; ring
  case value => rw [exec_rd, ← readIndex_toNat, BitVec.ofNat_toNat, BitVec.setWidth_eq]

/-- Settles O6: the busy branch of 40_host_access.md rule R100 comes right after those of `STATUS` and `ID`. -/
theorem busyReadReturnsZero : Obligations.BusyReadReturnsZero := by
  intro idx data s hb hstatus hid
  have hzero : rdValue s.hasB32 s.eng idx.toNat = 0 := by
    have h1 : idx.toNat ≠ 0x01 := fun h => hstatus (BitVec.eq_of_toNat_eq h)
    have h3 : idx.toNat ≠ 0x03 := fun h => hid (BitVec.eq_of_toNat_eq h)
    rw [rdValue, if_neg h1, if_neg h3, if_pos hb]
  have hread : readIndex s.hasB32 s.eng idx = 0 :=
    BitVec.eq_of_toNat_eq ((readIndex_toNat s.hasB32 s.eng idx).trans hzero)
  rw [exec_rd, hread]

/-! ## The effect of a write -/

theorem writeIndex_of_idle {hasB32 : Bool} {e : Engine} {idx : Index} {r : Reg} (v : Word)
    (hb : e.status.busy = false) (hr : regAt hasB32 idx = some r) : writeIndex hasB32 e idx v = writeReg e r v := by
  simp [writeIndex, hr, hb]

theorem wrEffect_dropped {hasB32 : Bool} {e : Engine} {i : Nat} (v : Word) (hb : e.status.busy = true)
    (h : lockableIndex hasB32 i) :
    wrEffect hasB32 e i v = { e with status := { e.status with lockerr := true } } := by
  have hstatus : i ≠ 0x01 := by
    unfold lockableIndex at h
    omega
  rw [wrEffect, if_neg hstatus, if_pos ⟨hb, h⟩]

theorem wrEffect_ignored {hasB32 : Bool} (e : Engine) {i : Nat} (v : Word)
    (h : ¬ lockableIndex hasB32 i ∧ i ≠ 0x01) : wrEffect hasB32 e i v = e := by
  obtain ⟨hlock, hstatus⟩ := h
  have hdrop : ¬ (e.status.busy = true ∧ lockableIndex hasB32 i) := fun h => hlock h.2
  rw [lockableIndex] at hdrop
  obtain ⟨hcmd, hcfg, hkeylen, hctrHi, hctrLo, hkey, htxtlen, htxt⟩ := not_lockableIndex_iff.1 hlock
  rw [wrEffect, if_neg hstatus, if_neg hdrop]
  simp only [hcmd, hcfg, hkeylen, hctrHi, hctrLo, hkey, htxtlen, htxt, if_false]

/-- The pseudocode of 40_host_access.md rule R101 at the index of a lockable register of an idle engine. -/
theorem wrEffect_regIndex {hasB32 : Bool} {e : Engine} {r : Reg} (v : Word) (hb : e.status.busy = false)
    (hl : lockable r = true) (hc : needsCodec r = true → hasB32 = true) :
    wrEffect hasB32 e (regIndex r).toNat v = writeReg e r v := by
  cases r with
  | status | id | code | trunc | codeStr0 | codeStr1 | digest => simp [lockable] at hl
  | cmd => simp [wrEffect, regIndex, writeReg, hb, accept, statusAccept, errNone]
  | cfg => simp [wrEffect, regIndex, writeReg, hb, cfgOfWord, extract_low, algOfBit]
  | keylen => simp [wrEffect, regIndex, writeReg, hb, extract_low]
  | txtlen => simp [wrEffect, regIndex, writeReg, hb, hc rfl, extract_low]
  | ctrHi => simp [wrEffect, regIndex, writeReg, hb, setCtrHi_eq]
  | ctrLo => simp [wrEffect, regIndex, writeReg, hb, setCtrLo_eq]
  | key n =>
    have hn : n.val ≤ 15 := by omega
    simp [wrEffect, regIndex_key_toNat, Nat.add_comm 0x20, writeReg, hb, hn, setWordAt_eq_putWord]
  | txt n =>
    have hn : n.val ≤ 25 := by omega
    simp [wrEffect, regIndex_txt_toNat, Nat.add_comm 0x40, writeReg, hb, hc rfl, hn, setWordAt_eq_putWord]

/-- The model's write has the effect of the pseudocode of 40_host_access.md rule R101, by the access class of its
index. -/
theorem writeIndex_eq_wrEffect (hasB32 : Bool) (e : Engine) (idx : Index) (v : Word) :
    writeIndex hasB32 e idx v = wrEffect hasB32 e idx.toNat v := by
  rcases access_class hasB32 idx with rfl | hlock | hignored
  · rw [writeIndex_status]; rfl
  · cases hb : e.status.busy with
    | true => rw [writeIndex_dropped v hb hlock, wrEffect_dropped v hb hlock]; rfl
    | false =>
      obtain ⟨r, hr, hl⟩ := regAt_of_lockableIndex hlock
      obtain ⟨rfl, hc⟩ := regIndex_of_regAt hr
      rw [writeIndex_of_idle v hb hr, wrEffect_regIndex v hb hl hc]
  · have h := not_lockableIndex_of_ignored hignored.symm
    rw [writeIndex_ignored e v h, wrEffect_ignored e v h]

/-- Settles O5: the decoded fields, and the effect by `writeIndex_eq_wrEffect`. -/
theorem wrHasRegisterEffect : Obligations.WrHasRegisterEffect := by
  refine fun idx v s => ⟨fun ht h => decodeTransaction_of_toNat true idx v ?decode, ?effect⟩
  case decode => rw [h, bit, Bool.toNat_true]; ring
  case effect => rw [exec_wr, writeIndex_eq_wrEffect]

/-- Settles O7: the drop. -/
theorem busyWriteIsDropped : Obligations.BusyWriteIsDropped := by
  intro idx v s hb hl
  rw [exec_wr, writeIndex_dropped v hb hl, statusLockErr]

/-- A flag that a write of 1 clears, as 40_host_access.md rule R103 says it. -/
theorem and_not_eq_ite (flag clears : Bool) : (flag && !clears) = if clears then false else flag := by
  cases clears <;> simp

/-- Settles O10: `STATUS` after the write is `statusW1C`, and `irq` needs `DONE`. -/
theorem statusWriteOneToClear : Obligations.StatusWriteOneToClear := by
  intro v s
  refine ⟨_, exec_wr 0x01 v s, ?_⟩
  rw [writeIndex_status]
  refine ⟨and_not_eq_ite _ _, and_not_eq_ite _ _, rfl, fun hv => ?_⟩
  rw [irq, statusW1C_done, hv, Bool.not_true, Bool.and_false, Bool.and_false]

/-! ## What a write leaves -/

/-- A dropped write shows in `STATUS` alone. -/
theorem readIndex_statusLockErr (hasB32 : Bool) (e : Engine) {idx : Index} (hidx : idx ≠ 0x01) :
    readIndex hasB32 { e with status := statusLockErr e.status } idx = readIndex hasB32 e idx := by
  cases hr : regAt hasB32 idx with
  | none => simp only [readIndex, hr]
  | some r =>
    rw [readIndex_of_regAt _ hr, readIndex_of_regAt _ hr]
    cases r with
    | status => exact absurd (regIndex_of_regAt hr).1.symm hidx
    | _ => rfl

/-- A write that is not dropped shows in its own register alone. -/
theorem readIndex_writeReg_other {hasB32 : Bool} (e : Engine) {r : Reg} {other : Index} (v : Word)
    (hl : lockable r = true) (hcmd : r ≠ .cmd) (hother : other ≠ regIndex r) :
    readIndex hasB32 (writeReg e r v) other = readIndex hasB32 e other := by
  cases hr : regAt hasB32 other with
  | none => simp only [readIndex, hr]
  | some r' =>
    have hne : r' ≠ r := by
      rintro rfl
      exact hother (regIndex_of_regAt hr).1.symm
    rw [readIndex_of_regAt _ hr, readIndex_of_regAt _ hr, busy_writeReg e r v hcmd,
      readReg_writeReg_other hasB32 e r r' v hl hcmd hne]

theorem readIndex_writeIndex_other {hasB32 : Bool} {e : Engine} {idx other : Index} (v : Word)
    (hl : lockableIndex hasB32 idx.toNat) (hcmd : idx ≠ 0x00) (hother : other ≠ idx)
    (hbusy : e.status.busy = true → other ≠ 0x01) :
    readIndex hasB32 (writeIndex hasB32 e idx v) other = readIndex hasB32 e other := by
  cases hb : e.status.busy with
  | true => rw [writeIndex_dropped v hb hl, readIndex_statusLockErr hasB32 e (hbusy hb)]
  | false =>
    obtain ⟨r, hr, hlock⟩ := regAt_of_lockableIndex hl
    obtain ⟨rfl, _⟩ := regIndex_of_regAt hr
    have hne : r ≠ .cmd := fun h => hcmd (congrArg regIndex h)
    rw [writeIndex_of_idle v hb hr, readIndex_writeReg_other e v hlock hne hother]

/-- Settles O13: the answers of the two reads agree by `readIndex_writeIndex_other`. -/
theorem writeLeavesOtherRegisters : Obligations.WriteLeavesOtherRegisters := by
  intro idx other v data s hl hcmd hother hbusy
  exact ⟨_, _, _, exec_wr idx v s, exec_rd other data _, exec_rd other data s,
    congrArg some (readIndex_writeIndex_other v hl hcmd hother hbusy), rfl⟩

end Sys2Proof.Machine
end

section
/-! PROOFS. The statements of 41_command_sequencer.md: accept and completion, which word selects which command, what
`CLEAR` and an illegal word leave, the command that runs on undisturbed, and the invariants every step keeps. -/

open Sys2Proof.Spec

namespace Sys2Proof.Machine

/-! ## The invariants: the flags and the results apart -/

/-- The clauses of 10_state.md rule R37 about the flags and the error code. -/
def FlagsInv (s : Status) : Prop :=
  (s.busy = true → s.done = false ∧ s.errcode = 0) ∧ s.errcode.toNat ≤ 6

/-- The clauses of 10_state.md rule R37 about the result registers. -/
def ResultsInv (e : Engine) : Prop :=
  (e.trunc.getLsbD 31 = false ∧ e.code.toNat < 10 ^ 8) ∧ (e.status.rvalid = true → resultsAgree e)

theorem inv_iff (e : Engine) : Inv e ↔ FlagsInv e.status ∧ ResultsInv e := by
  constructor
  · rintro ⟨hdone, hnoerr, htrunc, hcode, hlegal, hvalid⟩
    exact ⟨⟨fun hb => ⟨hdone hb, hnoerr hb⟩, hlegal⟩, ⟨htrunc, hcode⟩, hvalid⟩
  · rintro ⟨⟨hbusy, hlegal⟩, ⟨htrunc, hcode⟩, hvalid⟩
    exact ⟨fun hb => (hbusy hb).1, fun hb => (hbusy hb).2, htrunc, hcode, hlegal, hvalid⟩

theorem flagsInv_statusLockErr {s : Status} (h : FlagsInv s) : FlagsInv (statusLockErr s) := h

theorem flagsInv_statusW1C {s : Status} (h : FlagsInv s) (v : Word) : FlagsInv (statusW1C s v) := by
  obtain ⟨hbusy, hlegal⟩ := h
  refine ⟨fun hb => ?_, hlegal⟩
  obtain ⟨hdone, hnoerr⟩ := hbusy hb
  exact ⟨by rw [statusW1C_done, hdone, Bool.false_and], hnoerr⟩

theorem flagsInv_statusAccept (s : Status) : FlagsInv (statusAccept s) := ⟨fun _ => ⟨rfl, rfl⟩, by simp⟩

theorem flagsInv_statusComplete (s : Status) {code : BitVec 4} (h : code.toNat ≤ 6) :
    FlagsInv (statusComplete s code) := ⟨nofun, h⟩

theorem flagsInv_writeReg {e : Engine} (h : FlagsInv e.status) (r : Reg) (v : Word) :
    FlagsInv (writeReg e r v).status := by
  cases r with
  | cmd => exact flagsInv_statusAccept e.status
  | status => exact flagsInv_statusW1C h v
  | _ => exact h

theorem resultsInv_writeReg {e : Engine} (h : ResultsInv e) (r : Reg) (v : Word) : ResultsInv (writeReg e r v) := by
  cases r with
  | _ => exact h

theorem codeStrOf_eq (code : Word) (d : Nat) : codeStrOf code d = bufferOf 8 (decimalString code.toNat d) := by
  ext i hi
  rw [bufferOf_getElem, decimalString_getD, codeStrOf, Vector.getElem_ofFn]

/-- What a successful `HOTP` writes belongs together, whatever the result registers held (44_hotp.md rule R190). -/
theorem resultsInv_hotpResults {e : Engine} (hd : 6 ≤ e.cfg.digits.toNat ∧ e.cfg.digits.toNat ≤ 8) :
    ResultsInv (hotpResults e) := by
  obtain ⟨hmin, hmax⟩ := hd
  have hcode : (hotpResults e).code.toNat = (hotpResults e).trunc.toNat % 10 ^ e.cfg.digits.toNat :=
    reduceCode_toNat _ _
  have hbound : (hotpResults e).code.toNat < 10 ^ 8 :=
    calc (hotpResults e).code.toNat < 10 ^ e.cfg.digits.toNat := hcode ▸ Nat.mod_lt _ (by positivity)
      _ ≤ 10 ^ 8 := Nat.pow_le_pow_right (by decide) hmax
  exact ⟨⟨getLsbD_31_of_lt _ (dynamicTrunc_lt _), hbound⟩,
    fun _ => ⟨e.cfg.digits.toNat, hmin, hmax, hcode, (codeStrOf_eq _ _).symm⟩⟩

theorem resultsInv_clear {hasB32 : Bool} {e e' : Engine} (h : clearCommand hasB32 e = .ok e') : ResultsInv e' := by
  cases h
  have hzero : (0 : Word).getLsbD 31 = false ∧ (0 : Word).toNat < 10 ^ 8 := by decide
  exact ⟨hzero, nofun⟩

/-- The updates of a command that succeeds keep the results together. -/
theorem resultsInv_commandRule {hasB32 : Bool} {i : Instr} {e e' : Engine} (hi : isCommand i = true)
    (hok : commandRule hasB32 i e = .ok e') (h : ResultsInv e) : ResultsInv e' := by
  rcases commandRule_ok_cases hi hok with ⟨rfl, rfl⟩ | ⟨_, _, _, rfl⟩ | ⟨_, _, _, _, rfl⟩ | ⟨_, hclear⟩
  · exact resultsInv_hotpResults (hotp_digits hok)
  · exact h
  · exact h
  · exact resultsInv_clear hclear

/-- An error marks results not valid or leaves the mark as it is (41_command_sequencer.md rule R123). -/
theorem resultsInv_completeErr {e : Engine} (h : ResultsInv e) (k : Bool) (c : CmdError) :
    ResultsInv (completeErr k e c) := by
  obtain ⟨hresults, hvalid⟩ := h
  exact ⟨hresults, fun hr => hvalid (Bool.and_eq_true_iff.1 hr).2⟩

theorem inv_completed {hasB32 k : Bool} {i : Instr} {e : Engine} (hi : isCommand i = true) (h : Inv e) :
    Inv (completed k (commandRule hasB32 i) e) := by
  obtain ⟨_, hresults⟩ := (inv_iff e).1 h
  rw [inv_iff]
  rcases completed_cases k (commandRule hasB32 i) e with ⟨e', hok, hd⟩ | ⟨c, hd⟩
  · have hresults' : ResultsInv e' := resultsInv_commandRule hi hok hresults
    rw [hd]
    exact ⟨flagsInv_statusComplete _ (by decide), hresults'⟩
  · rw [hd]
    exact ⟨flagsInv_statusComplete _ (errCode_le c), resultsInv_completeErr hresults k c⟩

/-- Settles O39: by what one step can be; the base case is `invariantHoldsAtReset`. -/
theorem stepKeepsInvariant : Obligations.StepKeepsInvariant := by
  intro s t h hstep
  obtain ⟨hflags, hresults⟩ := (inv_iff s.eng).1 h
  obtain ⟨_, he | ⟨_, _, he⟩ | ⟨r, v, _, _, _, he⟩ | ⟨i, hi, _, _, he⟩ | ⟨_, he⟩⟩ := step_next_cases hstep
  · exact he ▸ h
  · rw [he, inv_iff]
    exact ⟨flagsInv_statusLockErr hflags, hresults⟩
  · rw [he, inv_iff]
    exact ⟨flagsInv_writeReg hflags r v, resultsInv_writeReg hresults r v⟩
  · rw [he]
    exact inv_completed hi h
  · rw [he]
    exact invariantHoldsAtReset.1

/-! ## What every completion leaves -/

/-- No command changes `cfg`, `LOCKERR` or the latch, whether it succeeds or not. -/
theorem completed_keepsControl (hasB32 k : Bool) (i : Instr) (e : Engine) :
    KeepsControl e (completed k (commandRule hasB32 i) e) := by
  rcases completed_cases k (commandRule hasB32 i) e with ⟨e', hok, h⟩ | ⟨c, h⟩
  · obtain ⟨hcfg, hlock, hlatch⟩ := commandRule_keeps _ _ _ _ hok
    rw [h]
    exact ⟨hcfg, hlock, hlatch⟩
  · rw [h]
    exact ⟨rfl, rfl, rfl⟩

theorem completed_errcode_le (k : Bool) (c : Engine → Except CmdError Engine) (e : Engine) :
    (completed k c e).status.errcode.toNat ≤ 6 := by
  rcases completed_cases k c e with ⟨e', _, h⟩ | ⟨x, h⟩
  · simp [h]
  · rw [h]
    exact errCode_le x

/-- Settles O15: the flags of `completed`, and what no command changes. -/
theorem completionFlags : Obligations.CompletionFlags := by
  intro i s hi
  have hdone := completed_done (i != .hotp) (commandRule s.hasB32 i) s.eng
  obtain ⟨hcfg, hlock, hlatch⟩ := completed_keepsControl s.hasB32 (i != .hotp) i s.eng
  refine ⟨_, exec_command i s hi, completed_busy _ _ _, hdone, completed_errcode_le _ _ _, ?irq, hcfg, hlock, hlatch,
    rfl, rfl, rfl⟩
  case irq => rw [irq, hdone, hcfg, Bool.and_true]

/-- The error completion in the words of the statements (41_command_sequencer.md rule R123). -/
theorem completeErr_eq (k : Bool) (e : Engine) (c : CmdError) :
    completeErr k e c = { e with status := completedStatus e.status (k && e.status.rvalid) (errCode c) } := rfl

/-- A command whose completion leaves an error code did not succeed. -/
theorem completed_of_errcode_ne_zero {k : Bool} {c : Engine → Except CmdError Engine} {e : Engine}
    (h : (completed k c e).status.errcode ≠ 0) :
    completed k c e = { e with
      status := completedStatus e.status (k && e.status.rvalid) (completed k c e).status.errcode } := by
  rcases completed_cases k c e with ⟨e', _, hd⟩ | ⟨x, hd⟩
  · rw [hd] at h
    exact absurd rfl h
  · rw [hd]
    exact completeErr_eq k e x

/-- Settles O16: a completion with an error code is the error completion. -/
theorem errorCompletionWritesOnlyStatus : Obligations.ErrorCompletionWritesOnlyStatus := by
  intro i s t hi hexec herr
  rw [exec_command i s hi] at hexec
  cases hexec
  have hrvalid : (i != .hotp && s.eng.status.rvalid) = if i = .hotp then false else s.eng.status.rvalid := by
    by_cases hhotp : i = .hotp
    · simp [hhotp]
    · simp [hhotp]
  have heng := completed_of_errcode_ne_zero herr
  rw [hrvalid] at heng
  simp only [errorState, ← heng]

/-! ## Which word selects which command -/

/-- Settles O17: without the codec the words of `B32ENC` and `B32DEC` take the default row. -/
theorem commandDispatchByFullWord : Obligations.CommandDispatchByFullWord := by
  intro hasB32 w
  rw [decodeCommand_eq]
  cases hasB32 with
  | true => simp only [and_true, if_true]
  | false =>
    by_cases h2 : w = 0x00000002
    · subst h2; rfl
    by_cases h3 : w = 0x00000003
    · subst h3; rfl
    simp only [h2, h3, false_and, if_false]

theorem exec_illegal (w : Word) (s : State) :
    exec (.illegal w) s = .next { errorState s s.eng.status.rvalid 3 with rsp := none } := rfl

/-- Settles O18: a word outside the opcode map decodes to the illegal instruction, whose completion reads no
operand. -/
theorem illegalWordCompletesWithECmd : Obligations.IllegalWordCompletesWithECmd := by
  refine ⟨fun w s => ⟨none, exec_illegal w s⟩, fun s rest hb he h1 h4 h23 => ⟨none, ?_⟩⟩
  have hillegal : s.eng.cmdLatch ∉ legalWords s.hasB32 := by
    rw [mem_legalWords]
    rintro (h | h | ⟨hc, h | h⟩)
    · exact h1 h
    · exact h4 h
    · exact (h23 hc).1 h
    · exact (h23 hc).2 h
  rw [step_completion_busy he hb, decodeCommand_of_not_mem_legalWords hillegal, exec_illegal]
  rfl

/-- Settles O19: the elements one by one. -/
theorem clearZeroises : Obligations.ClearZeroises := by
  rintro ⟨hasB32, e, events, rsp⟩
  refine ⟨decode_encode (i := .clear) rfl, _, exec_command .clear _ rfl, fun j => Vector.getElem_replicate _, rfl, rfl,
    fun j => Vector.getElem_replicate _, rfl, rfl, fun j => Vector.getElem_replicate _, fun hb => ?codec,
    fun hb => ?noCodec, rfl, rfl, rfl, rfl, rfl⟩
  case codec =>
    obtain rfl : hasB32 = true := hb
    exact ⟨fun j => Vector.getElem_replicate _, rfl⟩
  case noCodec =>
    obtain rfl : hasB32 = false := hb
    exact ⟨rfl, rfl⟩

/-! ## The accept -/

theorem writeIndex_cmd_idle (hasB32 : Bool) {e : Engine} (w : Word) (hb : e.status.busy = false) :
    writeIndex hasB32 e 0x00 w = accept e w :=
  writeIndex_of_idle w hb (regAt_regIndex hasB32 .cmd nofun)

/-- Settles O14: an idle engine accepts, and a busy one drops the write as that of any lockable index. -/
theorem acceptLatchesEveryWord : Obligations.AcceptLatchesEveryWord := by
  intro w s
  refine ⟨fun hb => ?idle, fun hb => busyWriteIsDropped 0x00 w s hb (.inl rfl)⟩
  case idle =>
    rw [exec_wr, writeIndex_cmd_idle s.hasB32 w hb]
    refine ⟨rfl, fun t ht => ?_⟩
    cases ht
    exact Bool.and_false _

/-- Settles O41: of the register writes only that of `CMD` writes `BUSY`, and a step that completes a command starts
from a busy engine. -/
theorem busyChangesOnlyByAcceptAndCompletion : Obligations.BusyChangesOnlyByAcceptAndCompletion := by
  intro s t h
  obtain ⟨_, he | ⟨_, _, he⟩ | ⟨r, v, hn, _, _, he⟩ | ⟨i, hi, hn, hb, _⟩ | ⟨hreset, he⟩⟩ := step_next_cases h
  · exact unchanged_flag (by rw [he])
  · exact unchanged_flag (by rw [he, statusLockErr_busy])
  · by_cases hcmd : r = .cmd
    · subst hcmd
      have hbusy : t.eng.status.busy = true := by rw [he]; rfl
      exact ⟨fun _ _ => ⟨v, hn, by rw [he]; rfl⟩, fun _ h0 => by simp [hbusy] at h0⟩
    · exact unchanged_flag (by rw [he, busy_writeReg _ _ _ hcmd])
  · exact ⟨fun h0 _ => by simp [hb] at h0, fun _ _ => .inr ⟨i, hn, hi⟩⟩
  · have hidle : t.eng.status.busy = false := by rw [he]; rfl
    exact ⟨fun _ h1 => by simp [hidle] at h1, fun _ _ => .inl hreset⟩

/-! ## The running command is undisturbed -/

/-- The engine with other values of the two flags that transactions can change while a command runs: a write of
`STATUS` clears them, and a dropped write sets `LOCKERR` (40_host_access.md rules R103 and R105). -/
def withHostFlags (done lockerr : Bool) (e : Engine) : Engine :=
  { e with status := { e.status with done, lockerr } }

/-- Anything a write does to a busy engine. -/
theorem writeIndex_busy (hasB32 : Bool) {e : Engine} (idx : Index) (v : Word) (hb : e.status.busy = true) :
    ∃ done lockerr, writeIndex hasB32 e idx v = withHostFlags done lockerr e := by
  rcases writeIndex_cases hasB32 e idx v with ⟨_, hw⟩ | ⟨_, _, _, _, hw⟩ | ⟨r, _, hidle, hw⟩
  · exact ⟨e.status.done, e.status.lockerr, hw⟩
  · exact ⟨e.status.done, true, hw⟩
  · by_cases hr : r = .status
    · subst hr
      exact ⟨_, _, hw⟩
    · have hl : lockable r = false := by
        rw [← Bool.not_eq_true]
        exact fun hl => by simp [hidle hl] at hb
      rw [hw, writeReg_readOnly e v hl hr]
      exact ⟨e.status.done, e.status.lockerr, rfl⟩

theorem step_request_busy {s : State} {ht : Transaction} {rest : List Event} (hb : s.eng.status.busy = true)
    (he : s.events = .request ht :: rest) :
    ∃ done lockerr answer,
      step s = .next { s with eng := withHostFlags done lockerr s.eng, events := rest, rsp := answer } := by
  rw [step_request he]
  rcases decodeTransaction_cases ht with ⟨idx, data, hd⟩ | ⟨idx, v, hd⟩
  · rw [hd, exec_rd]
    exact ⟨s.eng.status.done, s.eng.status.lockerr, _, rfl⟩
  · obtain ⟨done, lockerr, hw⟩ := writeIndex_busy s.hasB32 idx v hb
    rw [hd, exec_wr]
    exact ⟨done, lockerr, some 0, by rw [hw]⟩

theorem stepN_succ_of_step {s t : State} (n : Nat) (h : step s = .next t) : stepN (n + 1) s = stepN n t := by
  rw [stepN, h]

/-- A run of transactions on a busy engine, and whatever `n` steps come after it. -/
theorem stepN_requests_busy {requests : List Transaction} {rest : List Event} (n : Nat) {s : State}
    (hb : s.eng.status.busy = true) (he : s.events = requests.map .request ++ rest) :
    ∃ done lockerr answer, stepN (requests.length + n) s =
      stepN n { s with eng := withHostFlags done lockerr s.eng, events := rest, rsp := answer } := by
  induction requests generalizing s with
  | nil =>
    refine ⟨s.eng.status.done, s.eng.status.lockerr, s.rsp, ?_⟩
    rw [← show s.events = rest from he, List.length_nil, Nat.zero_add]
    rfl
  | cons ht requests ih =>
    obtain ⟨done, lockerr, answer, hstep⟩ := step_request_busy hb he
    have hlater := ih (s := { s with
      eng := withHostFlags done lockerr s.eng, events := requests.map .request ++ rest, rsp := answer }) hb rfl
    rw [List.length_cons, Nat.succ_add, stepN_succ_of_step _ hstep]
    exact hlater

/-- No command reads the flags of the host, and none writes them but by its completion. -/
theorem commandRule_withHostFlags (hasB32 : Bool) (i : Instr) (done lockerr : Bool) (e : Engine) :
    commandRule hasB32 i (withHostFlags done lockerr e) =
      (commandRule hasB32 i e).map (withHostFlags done lockerr) := by
  cases i with
  | rd | wr | clear | illegal => rfl
  | hotp =>
    simp only [commandRule, hotpCommand, apply_ite (Except.map (withHostFlags done lockerr))]
    rfl
  | b32enc =>
    simp only [commandRule, b32encCommand, apply_ite (Except.map (withHostFlags done lockerr))]
    rfl
  | b32dec =>
    have htext : text (withHostFlags done lockerr e) = text e := rfl
    simp only [commandRule, b32decCommand, htext, apply_ite (Except.map (withHostFlags done lockerr))]
    cases b32Decode (text e) with
    | error c => rfl
    | ok r =>
      simp only [apply_ite (Except.map (withHostFlags done lockerr))]
      rfl

/-- A completion overwrites `DONE`, so of the flags of the host only `LOCKERR` shows after it. -/
theorem completed_withHostFlags (hasB32 k : Bool) (i : Instr) (done lockerr : Bool) (e : Engine) :
    withoutLockErr (completed k (commandRule hasB32 i) (withHostFlags done lockerr e)) =
      withoutLockErr (completed k (commandRule hasB32 i) e) := by
  have hrule := commandRule_withHostFlags hasB32 i done lockerr e
  cases h : commandRule hasB32 i e with
  | ok e' =>
    rw [h] at hrule
    rw [completed_ok h, completed_ok hrule]
    rfl
  | error c =>
    rw [h] at hrule
    rw [completed_error h, completed_error hrule]
    rfl

theorem step_completes {s : State} {rest : List Event} (hb : s.eng.status.busy = true)
    (he : s.events = .completion :: rest) :
    step s = .next { s with
      eng := completed (decodeCommand s.hasB32 s.eng.cmdLatch != .hotp)
        (commandRule s.hasB32 (decodeCommand s.hasB32 s.eng.cmdLatch)) s.eng
      events := rest, rsp := none } :=
  (step_completion_busy he hb).trans (exec_command _ _ (decodeCommand_isCommand _ _))

/-- Settles O21: the transactions change at most the flags of the host, which no command reads. -/
theorem runningCommandIsUndisturbed : Obligations.RunningCommandIsUndisturbed := by
  intro s requests rest hb he
  obtain ⟨done, lockerr, answer, hrun⟩ := stepN_requests_busy 1 hb he
  have hlast := step_completes (s := { s with
    eng := withHostFlags done lockerr s.eng, events := .completion :: rest, rsp := answer }) hb rfl
  exact ⟨_, _, hrun.trans (stepN_succ_of_step 0 hlast), step_completes hb rfl,
    completed_withHostFlags _ _ _ _ _ _, rfl, rfl, completed_busy _ _ _, completed_done _ _ _⟩

end Sys2Proof.Machine
end

section
/-! PROOFS. The statements of 42_base32.md: the two functions of the codec in numbers, and the completions of its two
commands. -/

open Sys2Proof.Spec

namespace Sys2Proof.Machine

/-! ## Byte sequences as bit strings -/

theorem bigEndian_eq_bitsValue (bytes : List Byte) : bigEndian bytes = bitsValue (bytes.flatMap bitsMSB) :=
  (bitsValue_flatMap bytes).symm

theorem bitsValue_take (l : List Bool) (k : Nat) :
    bitsValue (l.take k) = bitsValue l / 2 ^ (l.length - k) := by
  have hsplit : bitsValue l = bitsValue (l.drop k) + bitsValue (l.take k) * 2 ^ (l.length - k) := by
    conv_lhs => rw [← List.take_append_drop k l, bitsValue_append, List.length_drop]
    exact Nat.add_comm _ _
  have hlow : bitsValue (l.drop k) < 2 ^ (l.length - k) := List.length_drop (l := l) ▸ bitsValue_lt (l.drop k)
  rw [hsplit, Nat.add_mul_div_right _ _ (by positivity), Nat.div_eq_of_lt hlow, Nat.zero_add]

/-- Whole groups of a bit string are its leading bits; the bits after the last group are lost. -/
theorem flatMap_groups_take (w n : Nat) {l : List Bool} (h : w * n ≤ l.length) :
    ((groups w n l).map (ofBitsMSB w)).flatMap bitsMSB = l.take (w * n) := by
  induction n generalizing l with
  | zero => simp [groups]
  | succ n ih =>
    rw [Nat.mul_succ] at h
    have hfirst : (l.take w).length = w := by
      rw [List.length_take]
      omega
    simp only [groups, List.map_cons, List.flatMap_cons]
    rw [bitsMSB_ofBitsMSB _ _ hfirst, ih (by rw [List.length_drop]; omega), Nat.mul_succ, Nat.add_comm, List.take_add]

/-! ## The encoder -/

theorem length_b32Encode (bytes : List Byte) : (b32Encode bytes).length = 8 * ((bytes.length + 4) / 5) := by
  rw [b32Encode_eq, List.length_append, List.length_map, encVals_length, List.length_replicate]
  omega

/-- Value `i` of an encoded text is its five bits of the zero-filled bit string (42_base32.md rule R141). -/
theorem encVals_getElem_toNat (bytes : List Byte) {m i : Nat} (hm : m = (8 * bytes.length + 4) / 5)
    (hi : i < (encVals bytes).length) :
    (encVals bytes)[i].toNat = bigEndian bytes * 2 ^ (5 * m - 8 * bytes.length) / 32 ^ (m - 1 - i) % 32 := by
  rw [encVals_length, ← hm] at hi
  have hlength : (bytes.flatMap bitsMSB ++ List.replicate (5 * m - 8 * bytes.length) false).length = 5 * m := by
    rw [List.length_append, flatMap_bitsMSB_length, List.length_replicate]
    omega
  have hshift : 5 * m - 5 * i - 5 = 5 * (m - 1 - i) := by omega
  simp only [encVals, List.getElem_map, groups_getElem, ← hm]
  rw [ofBitsMSB_toNat _ _ (List.length_take_le _ _), bitsValue_take_drop _ _ _ (by omega), hlength, hshift,
    bitsValue_append, bitsValue_zeros, List.length_replicate, Nat.add_zero, ← bigEndian_eq_bitsValue, Nat.pow_mul]
  rfl

/-- Settles O32: the characters before the padding are the values of `encVals_getElem_toNat` in the alphabet. -/
theorem base32EncodeGivesFiveBitGroups : Obligations.Base32EncodeGivesFiveBitGroups := by
  rintro bytes n m rfl rfl
  refine ⟨length_b32Encode bytes, fun i hi => ?character, fun i hlo hhi => ?padding⟩
  case character =>
    have hvals : i < (encVals bytes).length := by rwa [encVals_length]
    have hchars : i < ((encVals bytes).map alpha).length := by rwa [List.length_map]
    rw [byteAt, b32Encode_eq, List.getD_append _ _ _ _ hchars, List.getD_eq_getElem _ _ hchars, List.getElem_map,
      alpha_toNat, encVals_getElem_toNat bytes rfl hvals]
  case padding =>
    rw [byteAt, b32Encode_eq, List.getD_append_right _ _ _ _ (by rwa [List.length_map, encVals_length]),
      List.length_map, encVals_length, List.getD_replicate _ (by omega)]
    rfl

/-! ## The decoder -/

theorem b32Char_of_not_acceptedChar {c : Byte} (h : ¬ acceptedChar c) : b32Char c = .bad := by
  simp only [acceptedChar, not_or] at h
  obtain ⟨hupper, hlower, hdigit, hpad⟩ := h
  rw [b32Char, if_neg hupper, if_neg hlower, if_neg hdigit, if_neg hpad]

/-- Every alphabet character, in either case, has its value; `=` is the one other accepted character. -/
theorem b32Char_of_acceptedChar {c : Byte} (h : acceptedChar c) (hpad : c ≠ 0x3D) :
    b32Char c = .value (BitVec.ofNat 5 (charValue c)) := by
  obtain hupper | hlower | hdigit | hpad' := h
  · rw [b32Char, if_pos hupper, charValue, if_neg (by omega), if_pos hupper.2]
  · rw [b32Char, if_neg (by omega), if_pos hlower, charValue, if_neg (by omega), if_neg (by omega)]
  · rw [b32Char, if_neg (by omega), if_neg (by omega), if_pos hdigit, charValue, if_pos hdigit.2]
  · exact absurd (BitVec.eq_of_toNat_eq hpad') hpad

theorem charValue_lt {c : Byte} (h : acceptedChar c) (hpad : c ≠ 0x3D) : charValue c < 32 := by
  have hpad' : c.toNat ≠ 0x3D := fun he => hpad (BitVec.eq_of_toNat_eq he)
  unfold acceptedChar at h
  rw [charValue]
  split_ifs <;> omega

/-- The values of a text's alphabet characters, the list `vals` of 42_base32.md rule R142. -/
def textVals (t : List Byte) : List (BitVec 5) := (alphabetChars t).map fun c => BitVec.ofNat 5 (charValue c)

theorem length_textVals (t : List Byte) : (textVals t).length = (alphabetChars t).length := List.length_map _

theorem alphabetChars_pad (t : List Byte) : alphabetChars (0x3D :: t) = alphabetChars t := rfl

theorem alphabetChars_cons {c : Byte} (t : List Byte) (hpad : c ≠ 0x3D) :
    alphabetChars (c :: t) = c :: alphabetChars t := List.filter_cons_of_pos (by simpa using hpad)

theorem b32Values_of_accepted {t : List Byte} (h : ∀ c ∈ t, acceptedChar c) : b32Values t = .ok (textVals t) := by
  induction t with
  | nil => rfl
  | cons c t ih =>
    have hrest := ih fun d hd => h d (List.mem_cons_of_mem c hd)
    by_cases hpad : c = 0x3D
    · subst hpad
      exact hrest
    · rw [b32Values, b32Char_of_acceptedChar (h c List.mem_cons_self) hpad, hrest, textVals, textVals,
        alphabetChars_cons t hpad]
      rfl

theorem b32Values_of_not_accepted {t : List Byte} (h : ∃ c ∈ t, ¬ acceptedChar c) : b32Values t = .error .format := by
  obtain ⟨c, hc, hbad⟩ := h
  induction t with
  | nil => cases hc
  | cons d t ih =>
    rw [b32Values]
    rcases List.mem_cons.1 hc with rfl | hc
    · rw [b32Char_of_not_acceptedChar hbad]
    · rw [ih hc]
      cases b32Char d with
      | value | pad | bad => rfl

theorem textNumber_eq_bitsValue {t : List Byte} (h : ∀ c ∈ t, acceptedChar c) :
    textNumber t = bitsValue ((textVals t).flatMap bitsMSB) := by
  rw [bitsValue_flatMap, textVals, List.foldl_map, textNumber]
  refine List.foldl_ext _ _ _ fun n c hc => ?_
  obtain ⟨hmem, hpad⟩ := List.mem_filter.1 hc
  have hlt : charValue c < 2 ^ 5 := charValue_lt (h c hmem) (by simpa using hpad)
  rw [BitVec.toNat_ofNat, Nat.mod_eq_of_lt hlt]
  rfl

theorem b32Decode_of_badText {t : List Byte} (h : badText t) : b32Decode t = .error .format := by
  by_cases hchars : ∃ c ∈ t, ¬ acceptedChar c
  · rw [b32Decode, b32Values_of_not_accepted hchars]
  · have hcount : badCount t := h.resolve_left hchars
    push Not at hchars
    rw [b32Decode, b32Values_of_accepted hchars]
    exact if_pos (by rwa [length_textVals])

/-- The bytes of a well-formed text: the whole bytes of its values' bits, in their order (42_base32.md rule R142). -/
theorem b32Decode_of_not_badText {t : List Byte} (h : ¬ badText t) :
    b32Decode t =
      .ok ((groups 8 (5 * (alphabetChars t).length / 8) ((textVals t).flatMap bitsMSB)).map (ofBitsMSB 8)) := by
  obtain ⟨hchars, hcount⟩ := not_or.1 h
  push Not at hchars
  rw [b32Decode, b32Values_of_accepted hchars, ← length_textVals]
  exact if_neg (by rwa [length_textVals])

/-- Settles O33: the decoded bytes are the leading bits by `flatMap_groups_take`. -/
theorem base32DecodeGivesBytes : Obligations.Base32DecodeGivesBytes := by
  refine fun t => ⟨b32Decode_of_badText, fun h => ⟨_, b32Decode_of_not_badText h, ?length, ?value⟩⟩
  case length => rw [List.length_map, groups_length]
  case value =>
    have hchars : ∀ c ∈ t, acceptedChar c := fun c hc => by_contra fun hbad => h (.inl ⟨c, hc, hbad⟩)
    have hbits : ((textVals t).flatMap bitsMSB).length = 5 * (alphabetChars t).length := by
      rw [flatMap_bitsMSB_length, length_textVals]
    have hwhole : 8 * (5 * (alphabetChars t).length / 8) ≤ ((textVals t).flatMap bitsMSB).length := by omega
    rw [bigEndian_eq_bitsValue, flatMap_groups_take _ _ hwhole, bitsValue_take, hbits,
      textNumber_eq_bitsValue hchars, List.length_map, groups_length]

/-- The half of 42_base32.md rule R144 that the engine's commands need. -/
theorem b32Decode_b32Encode (bytes : List Byte) : b32Decode (b32Encode bytes) = .ok bytes := by
  have hvals : b32Values (b32Encode bytes) = .ok (encVals bytes) := by
    rw [b32Encode_eq]
    exact b32Values_map alpha b32Char_alpha _ _
  have hcount :
      ¬ ((encVals bytes).length % 8 = 1 ∨ (encVals bytes).length % 8 = 3 ∨ (encVals bytes).length % 8 = 6) := by
    rw [encVals_length]
    omega
  have hbytes : 5 * (encVals bytes).length / 8 = bytes.length := by
    rw [encVals_length]
    omega
  rw [b32Decode, hvals]
  refine (if_neg hcount).trans ?_
  rw [hbytes, encVals_bits, groups_flatMap]

/-! ## Completions -/

theorem errCode_injective {c d : CmdError} (h : errCode c = errCode d) : c = d := by
  revert h
  cases c <;> cases d <;> decide

/-- `ERRCODE` after a completion tells the cause. -/
theorem completed_errcode_eq_errCode_iff {k : Bool} {command : Engine → Except CmdError Engine} {e : Engine}
    {c : CmdError} : (completed k command e).status.errcode = errCode c ↔ command e = .error c := by
  cases h : command e with
  | ok e' =>
    rw [completed_ok h, completeOk_status, statusComplete_errcode]
    exact ⟨fun h0 => absurd h0.symm (errCode_ne c), nofun⟩
  | error d =>
    rw [completed_error h, completeErr_status, statusComplete_errcode]
    exact ⟨fun hcode => congrArg _ (errCode_injective hcode), fun hcause => by rw [Except.error.inj hcause]⟩

/-- A command other than `HOTP` that raises an error writes `STATUS` and nothing else, and keeps `RVALID`. -/
theorem exec_command_error {i : Instr} {s : State} {c : CmdError} (hi : isCommand i = true) (hne : i ≠ .hotp)
    (h : commandRule s.hasB32 i s.eng = .error c) :
    RunsTo (exec i s) (errorState s s.eng.status.rvalid (errCode c)) := by
  refine ⟨none, ?_⟩
  rw [exec_command i s hi, completed_error h, completeErr_eq, bne_iff_ne.2 hne]
  rfl

theorem exec_command_ok {i : Instr} {s : State} {e : Engine} (hi : isCommand i = true)
    (h : commandRule s.hasB32 i s.eng = .ok e) : exec i s = .next { s with eng := completeOk e, rsp := none } := by
  rw [exec_command i s hi, completed_ok h]

theorem bufferOf_getElem_toNat {n : Nat} (bytes : List Byte) (i : Fin n) :
    (bufferOf n bytes)[i].toNat = byteAt bytes i.val :=
  congrArg BitVec.toNat (bufferOf_getElem n bytes i.val i.isLt)

/-! ## `B32ENC` -/

theorem length_secret {e : Engine} (h : e.keylen.toNat ≤ 64) : (secret e).length = e.keylen.toNat := by
  rw [secret, List.length_take, Vector.length_toList]
  omega

theorem length_b32Encode_secret_le {e : Engine} (h : e.keylen.toNat ≤ 64) : (b32Encode (secret e)).length ≤ 104 :=
  b32Encode_length_le _ (by rwa [length_secret h])

/-- The engine after a `B32ENC` that writes the text `t` (42_base32.md rule R146). -/
def textWritten (e : Engine) (t : List Byte) : Engine :=
  { e with
    txt := bufferOf 104 t
    txtlen := BitVec.ofNat 8 t.length
    status := completedStatus e.status e.status.rvalid 0 }

theorem textWritten_txtlen_toNat (e : Engine) {t : List Byte} (hlen : t.length ≤ 104) :
    (textWritten e t).txtlen.toNat = t.length := by
  rw [textWritten, BitVec.toNat_ofNat, Nat.mod_eq_of_lt (by omega)]

theorem text_textWritten (e : Engine) {t : List Byte} (hlen : t.length ≤ 104) : text (textWritten e t) = t := by
  rw [text, textWritten_txtlen_toNat e hlen]
  exact buffer_take 104 t hlen

theorem completeOk_update_text (e : Engine) (txt : Vector Byte 104) (txtlen : BitVec 8) :
    completeOk { e with txt, txtlen } =
      { e with txt, txtlen, status := completedStatus e.status e.status.rvalid 0 } := rfl

theorem exec_b32enc_ok {s : State} (hb : s.hasB32 = true) (hk : s.eng.keylen.toNat ≤ 64) :
    exec .b32enc s = .next { s with eng := textWritten s.eng (b32Encode (secret s.eng)), rsp := none } := by
  rw [exec_command_ok (i := .b32enc) rfl ((b32encCommand_eq_ok_iff _ _ _).2 ⟨hb, hk, rfl⟩), completeOk_update_text,
    textWritten]

theorem b32encCommand_keylen {e : Engine} (h : 64 < e.keylen.toNat) : b32encCommand true e = .error .keylen := by
  rw [b32encCommand, if_neg nofun, if_pos h]

/-- Settles O34: the check, and the engine of `textWritten`. -/
theorem b32encWritesText : Obligations.B32encWritesText := by
  intro s hb
  refine ⟨by rw [hb]; rfl, fun hk => ?error, fun hk => ?ok⟩
  case error => exact exec_command_error (c := .keylen) rfl nofun (by rw [hb]; exact b32encCommand_keylen hk)
  case ok =>
    have hlen := length_b32Encode_secret_le hk
    have htxtlen := textWritten_txtlen_toNat s.eng hlen
    refine ⟨_, exec_b32enc_ok hb hk, bufferOf_getElem_toNat _, htxtlen, htxtlen.trans_le hlen, ?_⟩
    simp only [textWritten]

/-! ## `B32DEC` -/

/-- The engine after a `B32DEC` that writes the bytes `r` (42_base32.md rule R147). -/
def keyWritten (e : Engine) (r : List Byte) : Engine :=
  { e with
    key := bufferOf 64 r
    keylen := BitVec.ofNat 7 r.length
    status := completedStatus e.status e.status.rvalid 0 }

theorem keyWritten_keylen_toNat (e : Engine) {r : List Byte} (hlen : r.length ≤ 64) :
    (keyWritten e r).keylen.toNat = r.length := by
  rw [keyWritten, BitVec.toNat_ofNat, Nat.mod_eq_of_lt (by omega)]

theorem secret_keyWritten (e : Engine) {r : List Byte} (hlen : r.length ≤ 64) : secret (keyWritten e r) = r := by
  rw [secret, keyWritten_keylen_toNat e hlen]
  exact buffer_take 64 r hlen

theorem completeOk_update_key (e : Engine) (key : Vector Byte 64) (keylen : BitVec 7) :
    completeOk { e with key, keylen } =
      { e with key, keylen, status := completedStatus e.status e.status.rvalid 0 } := rfl

theorem exec_b32dec_ok {s : State} {r : List Byte} (hb : s.hasB32 = true) (ht : s.eng.txtlen.toNat ≤ 104)
    (hr : b32Decode (text s.eng) = .ok r) (hlen : r.length ≤ 64) :
    exec .b32dec s = .next { s with eng := keyWritten s.eng r, rsp := none } := by
  rw [exec_command_ok (i := .b32dec) rfl ((b32decCommand_eq_ok_iff _ _ _).2 ⟨hb, ht, r, hr, hlen, rfl⟩),
    completeOk_update_key, keyWritten]

theorem b32decCommand_txtlen {e : Engine} (h : 104 < e.txtlen.toNat) : b32decCommand true e = .error .txtlen := by
  rw [b32decCommand, if_neg nofun, if_pos h]

theorem b32decCommand_of_decode_error {e : Engine} {c : CmdError} (ht : e.txtlen.toNat ≤ 104)
    (h : b32Decode (text e) = .error c) : b32decCommand true e = .error c := by
  rw [b32decCommand, if_neg nofun, if_neg (Nat.not_lt.2 ht), h]

/-- The third check of 42_base32.md rule R147, met only past the other two. -/
theorem b32decCommand_eq_overflow_iff (hasB32 : Bool) (e : Engine) :
    b32decCommand hasB32 e = .error .overflow ↔
      hasB32 = true ∧ e.txtlen.toNat ≤ 104 ∧ ¬ badText (text e) ∧ 64 < 5 * (alphabetChars (text e)).length / 8 := by
  simp only [b32decCommand, Config.txtMax, Config.keyMax]
  split_ifs with hb ht
  · simp [hb]
  · simp only [Except.error.injEq, reduceCtorEq, false_iff]
    omega
  · have htxtlen : e.txtlen.toNat ≤ 104 := by omega
    by_cases hbad : badText (text e)
    · simp [b32Decode_of_badText hbad, hbad]
    · simp [b32Decode_of_not_badText hbad, hb, htxtlen, hbad]

/-- Settles O35: the three checks in their order, and the engine of `keyWritten`. -/
theorem b32decWritesKey : Obligations.B32decWritesKey := by
  rintro s t hb rfl
  refine ⟨by rw [hb]; rfl, fun ht => ?txtlen, fun ht hbad => ?format, fun ht hbad hover => ?overflow,
    fun ht hbad hfits => ?ok⟩
  case txtlen => exact exec_command_error (c := .txtlen) rfl nofun (by rw [hb]; exact b32decCommand_txtlen ht)
  case format =>
    exact exec_command_error (c := .format) rfl nofun
      (by rw [hb]; exact b32decCommand_of_decode_error ht (b32Decode_of_badText hbad))
  case overflow =>
    exact exec_command_error (c := .overflow) rfl nofun ((b32decCommand_eq_overflow_iff _ _).2 ⟨hb, ht, hbad, hover⟩)
  case ok =>
    obtain ⟨r, hr, hcount, _⟩ := (base32DecodeGivesBytes _).2 hbad
    have hlen : r.length ≤ 64 := hcount.trans_le hfits
    refine ⟨r, _, hr, exec_b32dec_ok hb ht hr hlen, bufferOf_getElem_toNat r, keyWritten_keylen_toNat _ hlen, ?_⟩
    simp only [keyWritten]

/-- A text with as many alphabet characters as bytes has no `=`. -/
theorem forall_ne_pad_of_length {t : List Byte} (h : t.length ≤ (alphabetChars t).length) : ∀ c ∈ t, c ≠ 0x3D := by
  have hall := List.length_filter_eq_length_iff.1 (le_antisymm (List.length_filter_le _ t) h)
  exact fun c hc => bne_iff_ne.1 (hall c hc)

/-- Settles O36: more than 64 bytes take 104 characters, and the text has at most that many. -/
theorem overflowNeedsFullText : Obligations.OverflowNeedsFullText := by
  intro s t hexec herr
  rw [exec_command .b32dec s rfl] at hexec
  cases hexec
  have hover : b32decCommand s.hasB32 s.eng = .error .overflow := completed_errcode_eq_errCode_iff.1 herr
  obtain ⟨_, ht, _, hlong⟩ := (b32decCommand_eq_overflow_iff _ _).1 hover
  have hfilter : (alphabetChars (text s.eng)).length ≤ (text s.eng).length := List.length_filter_le _ _
  have htext : (text s.eng).length = min s.eng.txtlen.toNat 104 := by
    rw [text, List.length_take, Vector.length_toList]
  have hfull : s.eng.txtlen.toNat = 104 := by omega
  have hwhole : text s.eng = s.eng.txt.toList := by
    rw [text, hfull]
    exact List.take_of_length_le (Vector.length_toList).le
  exact ⟨hfull, hwhole ▸ forall_ne_pad_of_length (by omega)⟩

/-- Settles O37: the text of the first command decodes to the secret by `b32Decode_b32Encode`. -/
theorem engineBase32RoundTrip : Obligations.EngineBase32RoundTrip := by
  intro s hb hk
  have hlen : (secret s.eng).length ≤ 64 := (length_secret hk).trans_le hk
  have htextlen := length_b32Encode_secret_le hk
  have htxtlen : (textWritten s.eng (b32Encode (secret s.eng))).txtlen.toNat ≤ 104 :=
    (textWritten_txtlen_toNat _ htextlen).trans_le htextlen
  have hdecode : b32Decode (text (textWritten s.eng (b32Encode (secret s.eng)))) = .ok (secret s.eng) := by
    rw [text_textWritten _ htextlen, b32Decode_b32Encode]
  refine ⟨_, _, exec_b32enc_ok hb hk, exec_b32dec_ok hb htxtlen hdecode hlen, rfl, rfl, ?keylen,
    secret_keyWritten _ hlen⟩
  case keylen => rw [← BitVec.toNat_inj, keyWritten_keylen_toNat _ hlen, length_secret hk]

end Sys2Proof.Machine
end

section
/-! PROOFS. The statements of 43_hash_hmac.md: the padding in numbers, and the key block that zeros after the key do not
change. -/

open Sys2Proof.Spec

namespace Sys2Proof.Machine

/-! ## The padding (rule R161) -/

theorem padZeros_lt (l : Nat) : padZeros l < 64 := by
  unfold padZeros
  omega

/-- The count fills the last block: `l` bytes, 0x80, the zeros and the eight bytes of the bit length. -/
theorem length_add_padZeros_mod (l : Nat) : (l + 1 + padZeros l + 8) % 64 = 0 := by
  unfold padZeros
  omega

theorem length_pad (message : List Byte) :
    (pad message).length = message.length + 1 + padZeros message.length + 8 := by
  simp only [pad, List.length_append, List.length_singleton, List.length_replicate, be64_length]

theorem drop_pad (message : List Byte) :
    (pad message).drop ((pad message).length - 8) = be64 (BitVec.ofNat 64 (8 * message.length)) := by
  apply List.drop_left'
  simp only [length_pad, List.length_append, List.length_singleton, List.length_replicate, Nat.add_sub_cancel]

/-- Settles O29 with `padZeros` zeros; below 2^61 bytes the bit length fits its 64 bits. -/
theorem paddingFillsWholeBlocks : Obligations.PaddingFillsWholeBlocks := by
  intro message hlen
  refine ⟨padZeros message.length, rfl, ?blocks, padZeros_lt _, ?bitLength⟩
  case blocks => rw [length_pad, length_add_padZeros_mod]
  case bitLength => rw [drop_pad, be64_value, BitVec.toNat_ofNat, Nat.mod_eq_of_lt (by omega)]

/-! ## The key block (rule R171) -/

theorem keyBlock_append_zeros (key : List Byte) (n : Nat) (h : key.length + n ≤ 64) :
    keyBlock (key ++ List.replicate n 0) = keyBlock key := by
  have hcount : n + (64 - (key.length + n)) = 64 - key.length := by omega
  rw [keyBlock, keyBlock, List.length_append, List.length_replicate, List.append_assoc,
    List.replicate_append_replicate, hcount]

/-- The key enters HMAC through its block only. -/
theorem hmac_congr_keyBlock {key key' : List Byte} (h : keyBlock key = keyBlock key') (alg : Alg)
    (message : List Byte) : hmac alg key message = hmac alg key' message := by
  simp only [hmac, ipadKey, opadKey, h]

/-- Settles O30: both keys have the same block. -/
theorem hmacIgnoresTrailingZeros : Obligations.HmacIgnoresTrailingZeros :=
  fun alg key message n h => hmac_congr_keyBlock (keyBlock_append_zeros key n h) alg message

end Sys2Proof.Machine
end

section
/-! PROOFS. The statements of 44_hotp.md: the truncation and the code string in numbers, then the command `HOTP`, what
its results depend on, what the host reads of them, and which steps write them. -/

open Sys2Proof.Spec

namespace Sys2Proof.Machine

/-! ## Dynamic truncation (rule R194) -/

theorem truncOffset_eq (mac : List Byte) : truncOffset mac = byteAt mac (mac.length - 1) % 16 := and_0F_toNat _

theorem dynamicTrunc_toNat (mac : List Byte) :
    (dynamicTrunc mac).toNat =
      16777216 * (byteAt mac (truncOffset mac) % 128) + 65536 * byteAt mac (truncOffset mac + 1)
        + 256 * byteAt mac (truncOffset mac + 2) + byteAt mac (truncOffset mac + 3) := by
  simp only [dynamicTrunc, wordBE_toNat, and_7F_toNat, byteAt]

/-- Settles O25: a remainder modulo 16 is at most 15, so the window ends at byte 18 of the 20 or 32. -/
theorem truncationWindowExists : Obligations.TruncationWindowExists := by
  rintro alg key message mac _ hmac rfl
  have hwindow : truncOffset mac + 3 ≤ 18 := by
    rw [truncOffset_eq]
    omega
  exact ⟨hmac ▸ hmac_length alg key message, truncOffset_eq mac, hwindow, dynamicTrunc_toNat mac,
    Nat.le_of_lt_succ (dynamicTrunc_lt mac)⟩

/-! ## The code string (rule R196) -/

theorem decimalDigit_toNat (n : Nat) : (BitVec.ofNat 8 (0x30 + n % 10)).toNat = 0x30 + n % 10 := by
  rw [BitVec.toNat_ofNat]
  omega

theorem length_decimalString (v d : Nat) : (decimalString v d).length = d := by
  rw [decimalString, List.length_map, List.length_range]

theorem byteAt_decimalString (v d i : Nat) :
    byteAt (decimalString v d) i = if i < d then 0x30 + v / 10 ^ (d - 1 - i) % 10 else 0 := by
  rw [byteAt, decimalString_getD, apply_ite BitVec.toNat, decimalDigit_toNat]
  rfl

theorem ascii_of_mem_decimalString {v d : Nat} {c : Byte} (h : c ∈ decimalString v d) :
    0x30 ≤ c.toNat ∧ c.toNat ≤ 0x39 := by
  obtain ⟨i, _, rfl⟩ := List.mem_map.1 h
  rw [decimalDigit_toNat]
  omega

/-- One more digit is the last digit of the number, after the string of the number without it. -/
theorem decimalString_succ (v d : Nat) :
    decimalString v (d + 1) = decimalString (v / 10) d ++ [BitVec.ofNat 8 (0x30 + v % 10)] := by
  have hdigits : ∀ i ∈ List.range d, v / 10 ^ (d + 1 - 1 - i) = v / 10 / 10 ^ (d - 1 - i) := by
    intro i hi
    have hexp : d + 1 - 1 - i = (d - 1 - i) + 1 := by
      have := List.mem_range.1 hi
      omega
    rw [hexp, Nat.pow_succ', Nat.div_div_eq_div_mul]
  have hlast : v / 10 ^ (d + 1 - 1 - d) = v := by simp
  rw [decimalString, List.range_succ, List.map_append, List.map_singleton, hlast, decimalString]
  congr 1
  exact List.map_congr_left fun i hi => by rw [hdigits i hi]

/-- The value of a string of `d` decimal digits: the number, but for its digits past the first `d`. -/
theorem decimalString_value (v d : Nat) :
    (decimalString v d).foldl (fun n c => 10 * n + (c.toNat - 0x30)) 0 = v % 10 ^ d := by
  induction d generalizing v with
  | zero => simp [decimalString, Nat.mod_one]
  | succ d ih =>
    rw [decimalString_succ, List.foldl_append, ih, List.foldl_cons, List.foldl_nil, decimalDigit_toNat, Nat.pow_succ',
      Nat.mod_mul, Nat.add_sub_cancel_left, Nat.add_comm]

/-- Settles O26: below `10 ^ d` no digit is lost. -/
theorem decimalStringDenotesCode : Obligations.DecimalStringDenotesCode := fun v d hv =>
  ⟨length_decimalString v d, fun _ hc => ascii_of_mem_decimalString hc,
    (decimalString_value v d).trans (Nat.mod_eq_of_lt hv)⟩

/-! ## The MAC of an engine -/

theorem length_hotpMac (e : Engine) : (hotpMac e).length = macLength e := hmac_length _ _ _

theorem truncOffset_hotpMac (e : Engine) : truncOffset (hotpMac e) = macOffset e := by
  rw [truncOffset_eq, length_hotpMac]
  rfl

theorem digestWords_getElem_toNat (mac : List Byte) (i : Fin 8) :
    (digestWords mac)[i].toNat = if i.val < mac.length / 4 then word4 mac i.val else 0 := by
  simp only [digestWords, Fin.getElem_fin, Vector.getElem_ofFn, apply_ite BitVec.toNat, wordBE_toNat]
  rfl

/-! ## The completion of `HOTP` (rules R190 and R191) -/

/-- A `HOTP` that raises an error writes `STATUS` and nothing else, and clears `RVALID`. -/
theorem exec_hotp_error {s : State} {c : CmdError} (h : hotpCommand s.eng = .error c) :
    RunsTo (exec .hotp s) (errorState s false (errCode c)) := by
  refine ⟨none, ?_⟩
  rw [exec_command .hotp s rfl, completed_error (c := commandRule s.hasB32 .hotp) h, completeErr_eq]
  rfl

theorem exec_hotp_ok {s : State} (hd : 6 ≤ s.eng.cfg.digits.toNat ∧ s.eng.cfg.digits.toNat ≤ 8)
    (hk : s.eng.keylen.toNat ≤ 64) :
    exec .hotp s = .next { s with eng := completeOk (hotpResults s.eng), rsp := none } :=
  exec_command_ok (i := .hotp) rfl (hotpCommand_ok hd.1 hd.2 hk)

/-- A completion with error code 0 is that of a command that succeeded. -/
theorem command_ok_of_errcode_zero {k : Bool} {command : Engine → Except CmdError Engine} {e : Engine}
    (h : (completed k command e).status.errcode = 0) :
    ∃ e', command e = .ok e' ∧ completed k command e = completeOk e' := by
  rcases completed_cases k command e with hok | ⟨c, hd⟩
  · exact hok
  · rw [hd] at h
    exact absurd h (errCode_ne c)

/-- Both checks passed when `HOTP` completes with error code 0, and the state is then that of `exec_hotp_ok`. -/
theorem exec_hotp_of_errcode_zero {s t : State} (h : exec .hotp s = .next t) (h0 : t.eng.status.errcode = 0) :
    (6 ≤ s.eng.cfg.digits.toNat ∧ s.eng.cfg.digits.toNat ≤ 8) ∧ s.eng.keylen.toNat ≤ 64 ∧
      t = { s with eng := completeOk (hotpResults s.eng), rsp := none } := by
  rw [exec_command .hotp s rfl] at h
  cases h
  obtain ⟨e', hok, hd⟩ := command_ok_of_errcode_zero h0
  obtain ⟨hdigits, hkeylen, rfl⟩ := (hotpCommand_eq_ok_iff s.eng e').1 hok
  exact ⟨hdigits, hkeylen, by rw [hd]⟩

/-- Settles O23: the two checks in their order, and the results of `exec_hotp_ok` in numbers. -/
theorem hotpComputesCode : Obligations.HotpComputesCode := by
  intro s
  refine ⟨decode_encode (i := .hotp) rfl, fun hd => exec_hotp_error (hotpCommand_digits hd),
    fun hmin hmax hk => exec_hotp_error (hotpCommand_keylen hmin hmax hk),
    fun hmin hmax hk => ⟨_, exec_hotp_ok ⟨hmin, hmax⟩ hk, fun i => ?digest, ?trunc, reduceCode_toNat _ _,
      fun i => ?codeStr, rfl⟩⟩
  case digest => exact (digestWords_getElem_toNat (hotpMac s.eng) i).trans (by rw [length_hotpMac]; rfl)
  case trunc => exact (dynamicTrunc_toNat (hotpMac s.eng)).trans (by rw [truncOffset_hotpMac]; rfl)
  case codeStr => exact (bufferOf_getElem_toNat _ i).trans (byteAt_decimalString _ _ _)

/-! ## What the results depend on (rule R198) -/

/-- The secret is the key bytes below the key length and no other. -/
theorem secret_congr {e e' : Engine} (hlen : e.keylen = e'.keylen)
    (hkey : ∀ j : Fin 64, j.val < e.keylen.toNat → e.key[j] = e'.key[j]) : secret e = secret e' := by
  rw [secret, secret, ← hlen]
  refine List.ext_getElem (by simp only [List.length_take, Vector.length_toList]) fun j hj _ => ?_
  simp only [List.length_take, Vector.length_toList, lt_min_iff] at hj
  obtain ⟨hsecret, hbuffer⟩ := hj
  rw [List.getElem_take, List.getElem_take, Vector.getElem_toList, Vector.getElem_toList]
  exact hkey ⟨j, hbuffer⟩ hsecret

/-- Settles O24: the checks and the MAC read the same values in both engines. -/
theorem hotpResultsArePure : Obligations.HotpResultsArePure := by
  intro s s' t t' hlen hkey hctr hdigits halg hexec hexec' h0
  obtain ⟨hd, hk, rfl⟩ := exec_hotp_of_errcode_zero hexec h0
  rw [exec_hotp_ok (hdigits ▸ hd) (hlen ▸ hk)] at hexec'
  cases hexec'
  have hmac : hotpMac s'.eng = hotpMac s.eng := by
    rw [hotpMac, hotpMac, halg, secret_congr hlen hkey, hctr]
  simp [hmac, hdigits]

/-! ## What the host reads (rule R197) -/

theorem readIndex_regIndex_idle {hasB32 : Bool} {e : Engine} (r : Reg) (hb : e.status.busy = false)
    (hc : needsCodec r = true → hasB32 = true) : readIndex hasB32 e (regIndex r) = readReg hasB32 e r := by
  rw [readIndex_of_regAt e (regAt_regIndex hasB32 r hc), hb]
  rfl

theorem statusWord_getLsbD_two (s : Status) : (statusWord s).getLsbD 2 = s.rvalid := by
  rw [statusWord, BitVec.getLsbD_append, BitVec.getLsbD_append, BitVec.getLsbD_append]
  simp

/-- A word of a buffer is that of the bytes it was filled with, 0x00 past their end. -/
theorem wordAt_bufferOf_toNat {k : Nat} (bytes : List Byte) (n : Nat) (h : 4 * n + 3 < k) :
    (wordAt (bufferOf k bytes) n h).toNat = word4 bytes n := by
  simp only [wordAt, wordBE_toNat, bufferOf_getElem, word4, byteAt]

/-- Settles O27: the engine is idle after the completion, so every read returns what its register holds. -/
theorem hotpResultLayout : Obligations.HotpResultLayout := by
  intro s t hexec h0
  obtain ⟨_, _, rfl⟩ := exec_hotp_of_errcode_zero hexec h0
  have hread (r : Reg) (hc : needsCodec r = false) :=
    readIndex_regIndex_idle (hasB32 := s.hasB32) (e := completeOk (hotpResults s.eng)) r rfl (by simp [hc])
  refine ⟨fun i hi => ?digest, ?codeStr0, ?codeStr1, hread .code rfl, hread .trunc rfl, ?rvalid⟩
  case digest =>
    have hlength : i < (hotpMac s.eng).length / 4 ↔ 4 * i < (hotpMac s.eng).length := by
      rw [hotpMac, hmac_length]
      split <;> omega
    refine (congrArg BitVec.toNat (hread (.digest ⟨i, hi⟩) rfl)).trans
      ((digestWords_getElem_toNat (hotpMac s.eng) ⟨i, hi⟩).trans ?_)
    simp only [hlength]
  case codeStr0 =>
    exact (congrArg BitVec.toNat (hread .codeStr0 rfl)).trans (wordAt_bufferOf_toNat _ 0 _)
  case codeStr1 =>
    exact (congrArg BitVec.toNat (hread .codeStr1 rfl)).trans (wordAt_bufferOf_toNat _ 1 _)
  case rvalid =>
    rw [readIndex_status, statusWord_getLsbD_two]
    rfl

/-! ## Which step writes the result registers -/

/-- The result registers (10_state.md rules R28 to R31). -/
def results (e : Engine) : Vector Word 8 × Word × Word × Vector Byte 8 := (e.digest, e.trunc, e.code, e.codeStr)

theorem results_eq_iff (e e' : Engine) :
    results e = results e' ↔
      e.digest = e'.digest ∧ e.trunc = e'.trunc ∧ e.code = e'.code ∧ e.codeStr = e'.codeStr := by
  simp only [results, Prod.mk.injEq]

theorem results_writeReg (e : Engine) (r : Reg) (v : Word) : results (writeReg e r v) = results e := by
  cases r <;> rfl

/-- Of the commands only a successful `HOTP` and `CLEAR` write the result registers (41_command_sequencer.md rule
R123). -/
theorem results_completed {hasB32 k : Bool} {i : Instr} {e : Engine} (hi : isCommand i = true) (hclear : i ≠ .clear)
    (hhotp : ¬ (i = .hotp ∧ (completed k (commandRule hasB32 i) e).status.errcode = 0)) :
    results (completed k (commandRule hasB32 i) e) = results e := by
  rcases completed_cases k (commandRule hasB32 i) e with ⟨e', hok, hd⟩ | ⟨c, hd⟩
  · rw [hd] at hhotp ⊢
    rcases commandRule_ok_cases hi hok with ⟨rfl, _⟩ | ⟨_, _, _, rfl⟩ | ⟨_, _, _, _, rfl⟩ | ⟨rfl, _⟩
    · exact absurd ⟨rfl, rfl⟩ hhotp
    · rfl
    · rfl
    · exact absurd rfl hclear
  · rw [hd]
    rfl

/-- Settles O44: no write and no other command reaches the result registers. -/
theorem resultsAreSnapshots : Obligations.ResultsAreSnapshots := by
  intro s t h hreset hclear hhotp
  rw [← results_eq_iff]
  obtain ⟨_, he | ⟨_, _, he⟩ | ⟨r, v, _, _, _, he⟩ | ⟨i, hi, hn, _, he⟩ | ⟨hreset', _⟩⟩ := step_next_cases h
  · rw [he]
  · rw [he]
    rfl
  · rw [he, results_writeReg]
  · rw [hn, Option.some.injEq, he] at hhotp
    rw [he, results_completed hi (fun h => hclear (h ▸ hn)) hhotp]
  · rw [hreset] at hreset'
    cases hreset'

end Sys2Proof.Machine
end

section
/-! PROOFS. The statements of 60_exceptions.md: no step stops, every error code has its cause, and what raises `irq`. -/

open Sys2Proof.Spec

namespace Sys2Proof.Machine

/-! ## No fault and no refusal (rule R212) -/

theorem exec_answers (i : Instr) (s : State) : ∃ t, exec i s = .next t := by
  cases i with
  | rd idx data => exact ⟨_, exec_rd idx data s⟩
  | wr idx v => exact ⟨_, exec_wr idx v s⟩
  | hotp | b32enc | b32dec | clear | illegal => exact ⟨_, exec_command _ s rfl⟩

theorem engineStep_answers (s : State) : ∃ t, engineStep s = .next t := by
  cases hb : s.eng.status.busy with
  | true => exact engineStep_busy hb ▸ exec_answers _ s
  | false => exact ⟨_, engineStep_idle hb⟩

theorem step_reset {s : State} {p : Option Transaction} {rest : List Event} (he : s.events = .reset p :: rest) :
    step s = .next { s with eng := Engine.reset, events := rest, rsp := none } := by
  rw [step, agentStep, he]
  rfl

theorem step_answers (s : State) : ∃ t, step s = .next t := by
  cases he : s.events with
  | nil => exact step_engineTurn (.inr ⟨he, rfl⟩) ▸ engineStep_answers _
  | cons ev rest =>
    cases ev with
    | request ht => exact step_request he ▸ exec_answers _ _
    | completion => exact step_engineTurn (.inl he) ▸ engineStep_answers _
    | reset p => exact ⟨_, step_reset he⟩

/-- Settles O2: a turn of the host or of the engine is an instruction or nothing, and a reset is always enabled. -/
theorem everyStepAnswersNextState : Obligations.EveryStepAnswersNextState := ⟨step_answers, exec_answers⟩

/-! ## The causes of an error (rule R210) -/

/-- The command and the operands that the table of 60_exceptions.md rule R210 gives for an error. -/
def errorCause (i : Instr) (e : Engine) : CmdError → Prop
  | .digits => i = .hotp ∧ (e.cfg.digits.toNat < 6 ∨ 8 < e.cfg.digits.toNat)
  | .format => i = .b32dec ∧ badText (text e)
  | .cmd => ∃ w, i = .illegal w
  | .keylen => (i = .hotp ∨ i = .b32enc) ∧ 64 < e.keylen.toNat
  | .txtlen => i = .b32dec ∧ 104 < e.txtlen.toNat
  | .overflow => i = .b32dec ∧ 64 < 5 * (alphabetChars (text e)).length / 8

theorem hotpCommand_error_cause {e : Engine} {c : CmdError} (h : hotpCommand e = .error c) :
    errorCause .hotp e c := by
  rw [hotpCommand] at h
  split_ifs at h with hd hk
  · cases h; exact ⟨rfl, hd⟩
  · cases h; exact ⟨.inl rfl, hk⟩

theorem b32encCommand_error_cause {e : Engine} {c : CmdError} (h : b32encCommand true e = .error c) :
    errorCause .b32enc e c := by
  by_cases hk : 64 < e.keylen.toNat
  · cases (b32encCommand_keylen hk).symm.trans h
    exact ⟨.inr rfl, hk⟩
  · cases ((b32encCommand_eq_ok_iff true e _).2 ⟨rfl, Nat.not_lt.1 hk, rfl⟩).symm.trans h

theorem b32decCommand_error_cause {e : Engine} {c : CmdError} (h : b32decCommand true e = .error c) :
    errorCause .b32dec e c := by
  by_cases ht : 104 < e.txtlen.toNat
  · cases (b32decCommand_txtlen ht).symm.trans h
    exact ⟨rfl, ht⟩
  have htxtlen : e.txtlen.toNat ≤ 104 := Nat.not_lt.1 ht
  by_cases hbad : badText (text e)
  · cases (b32decCommand_of_decode_error htxtlen (b32Decode_of_badText hbad)).symm.trans h
    exact ⟨rfl, hbad⟩
  by_cases hlong : 64 < 5 * (alphabetChars (text e)).length / 8
  · cases ((b32decCommand_eq_overflow_iff true e).2 ⟨rfl, htxtlen, hbad, hlong⟩).symm.trans h
    exact ⟨rfl, hlong⟩
  obtain ⟨r, hr, hcount, _⟩ := (base32DecodeGivesBytes _).2 hbad
  have hfits : r.length ≤ 64 := hcount.trans_le (Nat.not_lt.1 hlong)
  cases ((b32decCommand_eq_ok_iff true e _).2 ⟨rfl, htxtlen, r, hr, hfits, rfl⟩).symm.trans h

/-- A well-formed command raises an error only for its cause; a codec command is well-formed only with the codec
(30_encoding.md rule R83). -/
theorem commandRule_error_cause {hasB32 : Bool} {i : Instr} {e : Engine} {c : CmdError} (hi : isCommand i = true)
    (hwf : i.wellFormed hasB32 = true) (h : commandRule hasB32 i e = .error c) : errorCause i e c := by
  cases i with
  | rd | wr => cases hi
  | hotp => exact hotpCommand_error_cause h
  | b32enc =>
    obtain rfl : hasB32 = true := hwf
    exact b32encCommand_error_cause h
  | b32dec =>
    obtain rfl : hasB32 = true := hwf
    exact b32decCommand_error_cause h
  | clear => cases h
  | illegal w =>
    cases h
    exact ⟨w, rfl⟩

/-- Settles O20: a command that succeeds leaves code 0, and one that raises an error leaves the code of that error. -/
theorem errorCodesHaveTheirCauses : Obligations.ErrorCodesHaveTheirCauses := by
  intro i s t hi hwf hexec
  rw [exec_command i s hi] at hexec
  cases hexec
  cases hrule : commandRule s.hasB32 i s.eng with
  | ok e' =>
    rw [completed_ok hrule]
    exact .inl rfl
  | error c =>
    have hcause := commandRule_error_cause hi hwf hrule
    rw [completed_error hrule]
    right
    cases c with
    | digits => exact .inl ⟨rfl, hcause⟩
    | format => exact .inr (.inl ⟨rfl, hcause⟩)
    | cmd => exact .inr (.inr (.inl ⟨rfl, hcause⟩))
    | keylen => exact .inr (.inr (.inr (.inl ⟨rfl, hcause⟩)))
    | txtlen => exact .inr (.inr (.inr (.inr (.inl ⟨rfl, hcause⟩))))
    | overflow => exact .inr (.inr (.inr (.inr (.inr ⟨rfl, hcause⟩))))

/-! ## The interrupt (rule R216) -/

theorem irq_writeReg_cfg (e : Engine) (v : Word) :
    irq (writeReg e .cfg v) = (v.getLsbD 8 && e.status.done) := rfl

theorem irq_writeReg_status (e : Engine) (v : Word) : irq (writeReg e .status v) = (irq e && !v.getLsbD 1) :=
  (Bool.and_assoc _ _ _).symm

theorem irq_writeReg_cmd (e : Engine) (v : Word) : irq (writeReg e .cmd v) = false := Bool.and_false _

/-- Of the register writes only that of `CFG` raises `irq`: those of `CMD` and `STATUS` can only clear `DONE`, and the
others write neither `IE` nor `DONE`. -/
theorem eq_cfg_of_irq_writeReg {e : Engine} {r : Reg} {v : Word} (hlow : irq e = false)
    (hhigh : irq (writeReg e r v) = true) : r = .cfg := by
  cases r with
  | cfg => rfl
  | cmd => simp [irq_writeReg_cmd] at hhigh
  | status => simp [irq_writeReg_status, hlow] at hhigh
  | _ => cases hlow.symm.trans hhigh

/-- Settles O47: a dropped write and a reset leave `irq` as it is or low, a completion leaves `IE`, and a write reaches
`irq` by `eq_cfg_of_irq_writeReg`. -/
theorem interruptRisesByCompletionOrEnable : Obligations.InterruptRisesByCompletionOrEnable := by
  intro s t h hlow hhigh
  obtain ⟨_, he | ⟨_, _, he⟩ | ⟨r, v, hn, _, _, he⟩ | ⟨i, hi, hn, _, he⟩ | ⟨_, he⟩⟩ := step_next_cases h
  · rw [he, hlow] at hhigh
    cases hhigh
  · have hsame : irq t.eng = irq s.eng := by rw [he]; rfl
    rw [hsame, hlow] at hhigh
    cases hhigh
  · rw [he] at hhigh
    obtain rfl := eq_cfg_of_irq_writeReg hlow hhigh
    rw [irq_writeReg_cfg, Bool.and_eq_true] at hhigh
    exact .inr ⟨v, hn, hhigh⟩
  · have hcfg := (completed_keepsControl s.hasB32 (i != .hotp) i s.eng).cfg
    rw [irq, he, hcfg, Bool.and_eq_true] at hhigh
    exact .inl ⟨i, hn, hi, hhigh.1⟩
  · rw [he] at hhigh
    cases hhigh

end Sys2Proof.Machine
end

section
/-! PROOFS. The statements of 70_reset_and_hazards.md: the reset from every state, the reset of a running command, and
the value of a write seen by the next transaction. -/

open Sys2Proof.Spec

namespace Sys2Proof.Machine

/-! ## What the host reads after a reset (rule R36) -/

theorem wordAt_replicate_zero {k : Nat} (n : Nat) (h : 4 * n + 3 < k) : wordAt (Vector.replicate k 0) n h = 0 := by
  simp only [wordAt, Vector.getElem_replicate]
  rfl

theorem readReg_reset_eq_zero (hasB32 : Bool) {r : Reg} (hcfg : r ≠ .cfg) (hid : r ≠ .id) :
    readReg hasB32 Engine.reset r = 0 := by
  cases r with
  | cfg => exact absurd rfl hcfg
  | id => exact absurd rfl hid
  | cmd | status | keylen | txtlen | ctrHi | ctrLo | code | trunc => rfl
  | codeStr0 | codeStr1 | key | txt => exact wordAt_replicate_zero _ _
  | digest n => exact Vector.getElem_replicate _

/-- `CFG` and `ID` are the registers that do not read zero after a reset. -/
theorem readIndex_reset (hasB32 : Bool) (idx : Index) :
    readIndex hasB32 Engine.reset idx = resetRead hasB32 idx := by
  by_cases hcfg : idx = regIndex .cfg
  · rw [hcfg, readIndex_regIndex_idle .cfg rfl nofun]
    rfl
  by_cases hid : idx = regIndex .id
  · rw [hid, readIndex_regIndex_idle .id rfl nofun]
    rfl
  have hzero : resetRead hasB32 idx = 0 := (if_neg hcfg).trans (if_neg hid)
  rw [hzero]
  cases hr : regAt hasB32 idx with
  | none => rw [readIndex, hr]
  | some r =>
    obtain ⟨rfl, hc⟩ := regIndex_of_regAt hr
    rw [readIndex_regIndex_idle r rfl hc]
    exact readReg_reset_eq_zero hasB32 (fun h => hcfg (congrArg regIndex h)) (fun h => hid (congrArg regIndex h))

/-- Settles O3: the next state of `step_reset`, whose engine reads by `readIndex_reset`. -/
theorem resetFromEveryState : Obligations.ResetFromEveryState := by
  intro s p rest he
  have hzero {α : Type} {n : Nat} (x : α) (j : Fin n) : (Vector.replicate n x)[j] = x := Vector.getElem_replicate _
  refine ⟨_, step_reset he, rfl, rfl, rfl, hzero 0, rfl, rfl, rfl, rfl, hzero 0, rfl, rfl, hzero 0, hzero 0, rfl, rfl,
    fun idx data => ?_⟩
  rw [exec_rd, readIndex_reset]

/-! ## A reset after any transactions (rule R241) -/

theorem exec_keepsSchedule {i : Instr} {s t : State} (h : exec i s = .next t) : t.events = s.events := by
  cases i with
  | rd | wr => cases h; rfl
  | hotp | b32enc | b32dec | clear | illegal =>
    rw [exec_command _ s rfl] at h
    cases h
    rfl

/-- A run of transactions on any engine uses up its part of the schedule. -/
theorem stepN_requests {requests : List Transaction} {rest : List Event} (n : Nat) {s : State}
    (he : s.events = requests.map .request ++ rest) :
    ∃ t, stepN (requests.length + n) s = stepN n t ∧ t.events = rest := by
  induction requests generalizing s with
  | nil => exact ⟨s, by rw [List.length_nil, Nat.zero_add], he⟩
  | cons ht requests ih =>
    obtain ⟨u, hexec⟩ := exec_answers (decodeTransaction ht) { s with events := requests.map .request ++ rest }
    obtain ⟨t, hrun, hrest⟩ := ih (exec_keepsSchedule hexec)
    refine ⟨t, ?_, hrest⟩
    rw [List.length_cons, Nat.succ_add, stepN_succ_of_step _ ((step_request he).trans hexec), hrun]

/-- Settles O22: whatever state the transactions reach, the reset leaves nothing of its engine. -/
theorem resetAbandonsCommand : Obligations.ResetAbandonsCommand := by
  intro s requests p rest he
  obtain ⟨u, hrun, hu⟩ := stepN_requests 1 he
  exact ⟨_, hrun.trans (stepN_succ_of_step 0 (step_reset hu)), rfl, rfl, rfl, rfl, rfl⟩

/-! ## A written value is read back (rule R245) -/

/-- The registers above `TXTLEN` store whole words. -/
theorem storedBits_of_lt {idx : Index} (v : Word) (h : 0x05 < idx.toNat) : storedBits idx v = v := by
  have hne (i : Index) (hi : i.toNat ≤ 0x05) : idx ≠ i := by
    rintro rfl
    omega
  rw [storedBits, if_neg (hne 0x02 (by decide)), if_neg (hne 0x04 (by decide)), if_neg (hne 0x05 (by decide))]

theorem readReg_writeReg_same (hasB32 : Bool) (e : Engine) {r : Reg} (v : Word) (hl : lockable r = true)
    (hcmd : r ≠ .cmd) : readReg hasB32 (writeReg e r v) r = storedBits (regIndex r) v := by
  cases r with
  | cmd => exact absurd rfl hcmd
  | status | id | code | trunc | codeStr0 | codeStr1 | digest => cases hl
  | cfg => exact cfgWord_ofWord v
  | keylen => exact extract_setWidth_eq_and v 7 (by decide)
  | txtlen => exact extract_setWidth_eq_and v 8 (by decide)
  | ctrHi => exact ctrHi_setHi e.ctr v
  | ctrLo => exact ctrLo_setLo e.ctr v
  | key n =>
    rw [storedBits_of_lt v (by rw [regIndex_key_toNat]; omega)]
    exact wordAt_setWordAt_same e.key n (by omega) v
  | txt n =>
    rw [storedBits_of_lt v (by rw [regIndex_txt_toNat]; omega)]
    exact wordAt_setWordAt_same e.txt n (by omega) v

theorem readIndex_writeIndex_same {hasB32 : Bool} {e : Engine} {idx : Index} (v : Word)
    (hb : e.status.busy = false) (hcmd : idx ≠ 0x00) (hl : lockableIndex hasB32 idx.toNat) :
    readIndex hasB32 (writeIndex hasB32 e idx v) idx = storedBits idx v := by
  obtain ⟨r, hr, hlock⟩ := regAt_of_lockableIndex hl
  obtain ⟨rfl, hc⟩ := regIndex_of_regAt hr
  have hne : r ≠ .cmd := fun h => hcmd (congrArg regIndex h)
  have hidle : (writeReg e r v).status.busy = false := (busy_writeReg e r v hne).trans hb
  rw [writeIndex_of_idle v hb hr, readIndex_regIndex_idle r hidle hc, readReg_writeReg_same hasB32 e v hlock hne]

/-- Settles O12: the write comes to the register that the read of the same index looks up. -/
theorem writtenValueIsReadBack : Obligations.WrittenValueIsReadBack := by
  intro idx v data s hb hcmd hl
  refine ⟨_, exec_wr idx v s, ?_⟩
  rw [exec_rd, readIndex_writeIndex_same v hb hcmd hl]

end Sys2Proof.Machine
end

section
/-! PROOFS. The two derived equivalences: the MAC of a counter in four compression calls (43_hash_hmac.md rule R172), and
the decoding of an encoded text, in lower case and without its padding too (42_base32.md rule R144). -/

open Sys2Proof.Spec

namespace Sys2Proof.Machine

/-! ## Four compression calls (rule R172) -/

/-- The last block of a message of one block followed by `tail`, where `tail` leaves room for the padding
(43_hash_hmac.md rule R161). -/
def finalBlock (tail : List Byte) : List Byte :=
  tail ++ [0x80] ++ List.replicate (55 - tail.length) 0x00 ++ be64 (BitVec.ofNat 64 (8 * (64 + tail.length)))

/-- The hash of one block and a short tail is two compression calls. -/
theorem hash_append_eq_twoBlocks (alg : Alg) {first tail : List Byte} (hfirst : first.length = 64)
    (htail : tail.length ≤ 55) : hash alg (first ++ tail) = twoBlocks alg first (finalBlock tail) := by
  have hblocks : paddedBlocks (first ++ tail) = [first, finalBlock tail] := paddedBlocks_two first tail hfirst htail
  cases alg with
  | sha1 => rw [hash, sha1, hblocks, twoBlocks, List.foldl_cons, List.foldl_cons, List.foldl_nil]
  | sha256 => rw [hash, sha256, hblocks, twoBlocks, List.foldl_cons, List.foldl_cons, List.foldl_nil]

theorem counterBlock_eq_finalBlock (ctr : BitVec 64) : counterBlock ctr = finalBlock (be64 ctr) := rfl

theorem innerBlock_eq_finalBlock {alg : Alg} {inner : List Byte} (h : inner.length = digestLength alg) :
    innerBlock alg inner = finalBlock inner := by
  rw [innerBlock, finalBlock, h]

theorem length_hash_eq_digestLength (alg : Alg) (message : List Byte) :
    (hash alg message).length = digestLength alg := by
  cases alg with
  | sha1 | sha256 => exact hash_length _ message

theorem digestLength_le (alg : Alg) : digestLength alg ≤ 55 := by cases alg <;> decide

theorem length_ipadKey {key : List Byte} (h : key.length ≤ 64) : (ipadKey key).length = 64 := by
  rw [ipadKey, List.length_map, keyBlock_length key h]

theorem length_opadKey {key : List Byte} (h : key.length ≤ 64) : (opadKey key).length = 64 := by
  rw [opadKey, List.length_map, keyBlock_length key h]

/-- Settles O28: the inner and the outer hash are each one key block and a short tail. -/
theorem macIsFourCompressions : Obligations.MacIsFourCompressions := by
  intro alg key ctr hkey
  have hinner : hash alg (ipadKey key ++ be64 ctr) = twoBlocks alg (ipadKey key) (counterBlock ctr) := by
    rw [hash_append_eq_twoBlocks alg (length_ipadKey hkey) (by rw [be64_length]; decide), counterBlock_eq_finalBlock]
  have hdigest : (hash alg (ipadKey key ++ be64 ctr)).length = digestLength alg := length_hash_eq_digestLength _ _
  rw [hmac, hash_append_eq_twoBlocks alg (length_opadKey hkey) (hdigest.trans_le (digestLength_le alg)),
    ← innerBlock_eq_finalBlock hdigest, hinner, macFourBlocks]

/-! ## What the decoder ignores (rule R144) -/

theorem lowerCase_toNat_of_upper {c : Byte} (h : 0x41 ≤ c.toNat ∧ c.toNat ≤ 0x5A) :
    (lowerCase c).toNat = c.toNat + 0x20 := by
  have h20 : (0x20 : Byte).toNat = 0x20 := rfl
  rw [lowerCase, if_pos h, BitVec.toNat_add, h20]
  omega

/-- A letter and its lower-case form have the same value; every other byte is its own lower-case form. -/
theorem b32Char_lowerCase (c : Byte) : b32Char (lowerCase c) = b32Char c := by
  by_cases hupper : 0x41 ≤ c.toNat ∧ c.toNat ≤ 0x5A
  · have hlower := lowerCase_toNat_of_upper hupper
    have hvalue : c.toNat + 0x20 - 0x61 = c.toNat - 0x41 := by omega
    rw [b32Char, hlower, if_neg (by omega), if_pos (by omega), hvalue, b32Char, if_pos hupper]
  · rw [lowerCase, if_neg hupper]

theorem b32Values_map_lowerCase (t : List Byte) : b32Values (t.map lowerCase) = b32Values t := by
  induction t with
  | nil => rfl
  | cons c t ih => rw [List.map_cons, b32Values, b32Values, b32Char_lowerCase, ih]

theorem b32Values_alphabetChars (t : List Byte) : b32Values (alphabetChars t) = b32Values t := by
  induction t with
  | nil => rfl
  | cons c t ih =>
    by_cases hpad : c = 0x3D
    · subst hpad
      exact ih
    · rw [alphabetChars_cons t hpad, b32Values, b32Values, ih]

theorem b32Decode_congr_b32Values {t t' : List Byte} (h : b32Values t = b32Values t') :
    b32Decode t = b32Decode t' := by
  rw [b32Decode, b32Decode, h]

/-- Settles O31: the decoder reads lower case and no padding alike in every text, so both variants come to
`b32Decode_b32Encode`; the three counterexamples to the converse are computed. -/
theorem base32RoundTrip : Obligations.Base32RoundTrip := by
  refine ⟨fun bytes => ⟨b32Decode_b32Encode bytes, ?lower, ?unpadded⟩, ?converse⟩
  case lower => rw [b32Decode_congr_b32Values (b32Values_map_lowerCase _), b32Decode_b32Encode]
  case unpadded => rw [b32Decode_congr_b32Values (b32Values_alphabetChars _), b32Decode_b32Encode]
  case converse => decide

end Sys2Proof.Machine
end
